-- ==== Sys2Proof/Word.lean ====
section
/-! DEFINITION. The data types of CORE: bytes, header words, permutation tables.

Rule R10: every architectural value is an unsigned byte; the one wider value a rule handles is the
32-bit header word (R71). The primitives of rule R11 are Lean's own operations on `BitVec 8`:
`add8` is `+`, `xor8` is `^^^`, `and8` is `&&&`, `shl8` is `<<<` (bits shifted past bit 7 are lost),
`shr8` is `>>>` (zeros enter at bit 7), and `gt8` compares the unsigned values, `y.toNat < x.toNat`. -/

namespace Sys2Proof

/-- R10 `byte`: an unsigned 8-bit value. Addition wraps modulo 256 (R11). -/
abbrev Byte := BitVec 8

/-- R71: the 32-bit command header `h`, bit 0 the least significant. -/
abbrev Word32 := BitVec 32

/-- R50, R51: one table memory, exactly 256 cells of 8 bits, addressed by a `byte`. Every address
exists, so equal contents are equal data and no cell is ever absent. -/
abbrev Table := Vector Byte 256

end Sys2Proof
end

