-- ==== Sys2Proof/Config.lean ====
section
/-! DEFINITION. The constants of rule R7 under the spec's names, and the record of the parameters of
rule R8. The values the parameters take in this hardware are `Machine.params`
(Sys2Proof/Machine/Params.lean). -/

namespace Sys2Proof

/-- Which operand byte a VMPC schedule iteration reads: `VMPC_KEY_INDEX` (R8, R161, D17). -/
inductive VmpcKeyIndex where
  /-- the position within the pass, `n mod slen` (the default) -/
  | inPass
  /-- a counter running 0..767 across the three passes over one input -/
  | running
deriving DecidableEq, Repr

/-- What `VMPC.j` holds after VMPC.INIT: `VMPC_J_AFTER_INIT` (R8, R160, D18). -/
inductive VmpcJAfterInit where
  /-- the value the sixth pass left (the default) -/
  | carried
  | zero
deriving DecidableEq, Repr

/-- Rule R8: the parameters the document does not pin. -/
structure Config where
  /-- `RC4P_OUT` (R126, D14): the output byte from the table after the swap and the new `i`, `j`. -/
  rc4pOut : Table → Byte → Byte → Byte
  /-- `VMPC_KSA_STEP` (R161, D17): the new accumulator from the table, the old accumulator, the
  position `n` and the operand byte. -/
  vmpcKsaStep : Table → Byte → Byte → Byte → Byte
  vmpcKeyIndex : VmpcKeyIndex
  vmpcJAfterInit : VmpcJAfterInit
  /-- `SPZ_STOP_COND` (R189, D20): when `absorb_stop` shuffles, as a predicate on `a`. -/
  spzStopCond : Byte → Bool

namespace Config

/-- R7 `N`: entries per table, modulus of all index and accumulator arithmetic. -/
@[simp] abbrev tableSize : Nat := 256
/-- R7 `KEYLEN_MIN`: the smallest accepted key length. -/
@[simp] abbrev keyLenMin : Nat := 1
/-- R7 `KEYLEN_MAX`: the largest accepted key length. -/
@[simp] abbrev keyLenMax : Nat := 256
/-- R7 `RC4P_L2_START`: the highest index of RC4+ layer 2. -/
@[simp] abbrev rc4pL2Start : Nat := 127
/-- R7 `RC4P_SHL`. -/
@[simp] abbrev rc4pShl : Nat := 5
/-- R7 `RC4P_SHR`. -/
@[simp] abbrev rc4pShr : Nat := 3
/-- R7 `RC4P_MASK`. -/
@[simp] abbrev rc4pMask : Byte := 0xAA
/-- R7 `VMPC_PASSES`: full passes per input. -/
@[simp] abbrev vmpcPasses : Nat := 3
/-- R7 `SPZ_HALF`: absorb threshold, base of the absorb swap target, number of crush pairs. -/
@[simp] abbrev spzHalf : Nat := 128
/-- R7 `SPZ_WHIP_UPDATES`. -/
@[simp] abbrev spzWhipUpdates : Nat := 512
/-- R7 `SPZ_W_STEP`. -/
@[simp] abbrev spzWStep : Byte := 2
/-- R7 `SPZ_LOW_MASK`. -/
@[simp] abbrev spzLowMask : Byte := 0x0F
/-- R7 `SPZ_HIGH_MASK`: masked, never shifted. -/
@[simp] abbrev spzHighMask : Byte := 0xF0
/-- R7 `LEN_FIELD_BITS`: width of KLEN, IVLEN and LEN. -/
@[simp] abbrev lenFieldBits : Nat := 10
/-- R7 `COUNT_FIELD_BITS`: width of COUNT. -/
@[simp] abbrev countFieldBits : Nat := 16

end Config

end Sys2Proof
end

