-- ==== Sys2Proof/Syntax.lean ====
section
/-! DEFINITION. The commands of CORE (rules R75, R79): one constructor per row of
spec/opcode_table.json, carrying the operands as the sequences the packet's payload holds.
The remaining term of R79's type, `ILLEGAL(h)`, is no row of the table: the decoder yields it as
`Decoded.illegal` and `Machine.execIllegal` gives it its meaning. -/

namespace Sys2Proof

/-- R2: the five engines, in the order of their numbers 0..4. -/
inductive Eng where
  | rc4
  | rc4p
  | rc4a
  | vmpc
  | spz
deriving DecidableEq, Repr

/-- R79: a decoded command. `key`, `iv`, `data` have length 0..1023 as encoded (`Instr.wellFormed`);
`count` is the unsigned 16-bit COUNT field. -/
inductive Instr where
  | rc4Init (key : List Byte)
  | rc4Gen
  | rc4pInit (key iv : List Byte)
  | rc4pGen
  | rc4aInit (key : List Byte)
  | rc4aGen
  | vmpcInit (key iv : List Byte)
  | vmpcGen
  | spzInit (key : List Byte)
  | spzSqueeze (count : BitVec 16)
  | spzAbsorb (data : List Byte)
  | spzAbsorbStop
deriving DecidableEq, Repr

/-- The engine a command is addressed to (the ENG field, R72). -/
def Instr.eng : Instr → Eng
  | .rc4Init _ => .rc4
  | .rc4Gen => .rc4
  | .rc4pInit _ _ => .rc4p
  | .rc4pGen => .rc4p
  | .rc4aInit _ => .rc4a
  | .rc4aGen => .rc4a
  | .vmpcInit _ _ => .vmpc
  | .vmpcGen => .vmpc
  | .spzInit _ => .spz
  | .spzSqueeze _ => .spz
  | .spzAbsorb _ => .spz
  | .spzAbsorbStop => .spz

/-- Whether a command is an INIT (`OP = 1`, R72). -/
def Instr.isInit : Instr → Bool
  | .rc4Init _ => true
  | .rc4Gen => false
  | .rc4pInit _ _ => true
  | .rc4pGen => false
  | .rc4aInit _ => true
  | .rc4aGen => false
  | .vmpcInit _ _ => true
  | .vmpcGen => false
  | .spzInit _ => true
  | .spzSqueeze _ => false
  | .spzAbsorb _ => false
  | .spzAbsorbStop => false

end Sys2Proof
end

