-- ==== Sys2Proof/Machine/State.lean ====
section
/-! DEFINITION. The architectural state of CORE (rule R20), its value after reset (R33, R250), the
statuses a response carries (R221) and the ways a step can stop. -/

namespace Sys2Proof.Machine

/-- R21, R22, R24: the registers of an engine with one table. RC4, RC4P and VMPC each have their own. -/
structure PermEngine where
  i : Byte
  j : Byte
  S : Table
deriving DecidableEq, Repr

/-- R23: the registers of the RC4A engine. -/
structure Rc4aEngine where
  i : Byte
  j1 : Byte
  j2 : Byte
  S1 : Table
  S2 : Table
deriving DecidableEq, Repr

/-- R25: the registers of the Spritz engine. -/
structure SpzEngine where
  i : Byte
  j : Byte
  k : Byte
  a : Byte
  w : Byte
  z : Byte
  S : Table
deriving DecidableEq, Repr

/-- R20: the state of CORE. Nothing else persists from one command to the next (R31). -/
structure State where
  rc4 : PermEngine
  rc4p : PermEngine
  rc4a : Rc4aEngine
  vmpc : PermEngine
  spz : SpzEngine
  /-- R28 `ENGSTAT.V`: bit `e` is the valid bit of engine number `e`. -/
  engstat : BitVec 5
  /-- R30: the command bytes sent and not yet consumed, oldest first. -/
  cmd : List Byte
  /-- R30: the response bytes produced and not yet removed, oldest first. -/
  rsp : List Byte
deriving DecidableEq, Repr

/-- The table contents at reset. DESIGN CHOICE (log entry 1), unsafe: R33 gives none. -/
def resetTable : Table := Vector.replicate 256 0

/-- R33, R250: all valid bits 0, both streams empty. The scalars and tables, which the spec leaves
unspecified, are 0: DESIGN CHOICE (log entry 1), unsafe. -/
def State.reset : State where
  rc4 := ⟨0, 0, resetTable⟩
  rc4p := ⟨0, 0, resetTable⟩
  rc4a := ⟨0, 0, 0, resetTable, resetTable⟩
  vmpc := ⟨0, 0, resetTable⟩
  spz := ⟨0, 0, 0, 0, 0, 0, resetTable⟩
  engstat := 0
  cmd := []
  rsp := []

/-- R221: the statuses of a response. -/
inductive Status where
  | ok
  | errKeyEmpty
  | errKeyTooLong
  | errIvLen
  | errNotInit
  | errIllegal
deriving DecidableEq, Repr

/-- R79: a response. Statuses 0x06..0xFF are never produced (U8), so the type does not hold them. -/
structure Rsp where
  status : Status
  data : List Byte
deriving DecidableEq, Repr

/-- Why `step` has no next state. -/
inductive Fault where
  /-- Raised by `step` alone, when CMD holds fewer bytes than the packet at its head needs: the spec's
  hold, "no step" (R80, U6). It is no error of the hardware and no response; the host lifts it by
  appending bytes. Safe: the model says nothing of what follows until the host acts. -/
  | hold
deriving DecidableEq, Repr

/-- Why an instruction has no meaning in this model. -/
inductive Refusal where
  /-- Raised by `exec` for an instruction with no meaning yet; no arm does. Safe. -/
  | notModelled (mnemonic : String)
deriving DecidableEq, Repr

end Sys2Proof.Machine
end

