-- ==== Sys2Proof/Machine/Operands.lean ====
section
/-! DEFINITION. The operands of the commands: how a key or IV is indexed (rule R13) and which lengths
an INIT rejects, in which order (rules R222, R223). -/

namespace Sys2Proof.Machine

/-- R13 `src[n mod len(src)]`. Every caller is reached only after the length checks, so `src` is not
empty; for an empty `src`, which no command passes, the byte is 0 (DESIGN CHOICE, log entry 2, safe). -/
def operandAt (src : List Byte) (n : Nat) : Byte := src.getD (n % src.length) 0

/-- R222, R223: the key-length checks of every INIT. -/
def keyReject (klen : Nat) : Option Status :=
  if klen < Config.keyLenMin then some .errKeyEmpty
  else if Config.keyLenMax < klen then some .errKeyTooLong
  else none

/-- R222, R223: the checks of RC4P.INIT and VMPC.INIT, the key's before the IV's. -/
def keyIvReject (klen ivlen : Nat) : Option Status :=
  match keyReject klen with
  | some c => some c
  | none => if ivlen ≠ klen then some .errIvLen else none

end Sys2Proof.Machine
end

