-- ==== Sys2Proof/WellFormed.lean ====
section
/-! DEFINITION. Which command terms a packet can carry (rules R73, R79): every byte sequence has a
length its 10-bit field can say. COUNT is a 16-bit vector, so it always fits. -/

namespace Sys2Proof

/-- R73: a length of 0..1023 fits KLEN, IVLEN or LEN. -/
def fitsLenField (bs : List Byte) : Bool := decide (bs.length < 2 ^ Config.lenFieldBits)

/-- R79: the commands that have an encoding. -/
def Instr.wellFormed : Instr → Bool
  | .rc4Init key => fitsLenField key
  | .rc4Gen => true
  | .rc4pInit key iv => fitsLenField key && fitsLenField iv
  | .rc4pGen => true
  | .rc4aInit key => fitsLenField key
  | .rc4aGen => true
  | .vmpcInit key iv => fitsLenField key && fitsLenField iv
  | .vmpcGen => true
  | .spzInit key => fitsLenField key
  | .spzSqueeze _ => true
  | .spzAbsorb data => fitsLenField data
  | .spzAbsorbStop => true

end Sys2Proof
end

