-- ==== Sys2Proof/Decode.lean ====
section
/-! DEFINITION. The packet decoder and encoder (rules R70 to R80). Decoding is total on any bytes:
the head of CMD is a whole command, an illegal header, or not yet a whole packet. -/

namespace Sys2Proof

/-- R73: the packet formats. -/
inductive Format where
  | k
  | kv
  | l
  | g
  | q
deriving DecidableEq, Repr

/-- The twelve commands of R75 without their operands. -/
inductive Opcode where
  | rc4Init
  | rc4Gen
  | rc4pInit
  | rc4pGen
  | rc4aInit
  | rc4aGen
  | vmpcInit
  | vmpcGen
  | spzInit
  | spzSqueeze
  | spzAbsorb
  | spzAbsorbStop
deriving DecidableEq, Repr

/-- One row of the opcode map. -/
structure OpRow where
  opcode : Opcode
  format : Format
  matchBits : Word32
  mask : Word32
deriving DecidableEq, Repr

/-- R75: the opcode map. The masks take in the reserved and must-be-zero bits. -/
def opcodeTable : List OpRow :=
  [ ⟨.rc4Init, .k, 0x01000000, 0xFFFFFC00⟩,
    ⟨.rc4Gen, .g, 0x02000000, 0xFFFFFFFF⟩,
    ⟨.rc4pInit, .kv, 0x11000000, 0xFFF00000⟩,
    ⟨.rc4pGen, .g, 0x12000000, 0xFFFFFFFF⟩,
    ⟨.rc4aInit, .k, 0x21000000, 0xFFFFFC00⟩,
    ⟨.rc4aGen, .g, 0x22000000, 0xFFFFFFFF⟩,
    ⟨.vmpcInit, .kv, 0x31000000, 0xFFF00000⟩,
    ⟨.vmpcGen, .g, 0x32000000, 0xFFFFFFFF⟩,
    ⟨.spzInit, .k, 0x41000000, 0xFFFFFC00⟩,
    ⟨.spzSqueeze, .q, 0x42000000, 0xFFFF0000⟩,
    ⟨.spzAbsorb, .l, 0x43000000, 0xFFFFFC00⟩,
    ⟨.spzAbsorbStop, .g, 0x44000000, 0xFFFFFFFF⟩ ]

/-- R75: `h` encodes a row's command iff `(h and mask) = match`. -/
def OpRow.selects (r : OpRow) (h : Word32) : Bool := h &&& r.mask == r.matchBits

/-- R75, R77: the row a header selects; `none` for an illegal header. -/
def lookupRow (h : Word32) : Option OpRow := opcodeTable.find? fun r => r.selects h

/-- R73: KLEN (format K, KV) and LEN (format L) are `h[9:0]`. -/
def lenField (h : Word32) : Nat := (h.extractLsb' 0 Config.lenFieldBits).toNat

/-- R73: IVLEN is `h[19:10]`. -/
def ivlenField (h : Word32) : Nat := (h.extractLsb' 10 Config.lenFieldBits).toNat

/-- R73: COUNT is `h[15:0]`. -/
def countField (h : Word32) : BitVec 16 := h.extractLsb' 0 Config.countFieldBits

/-- R74: the payload's length, from the header alone. -/
def payloadLength : Format → Word32 → Nat
  | .k, h => lenField h
  | .kv, h => lenField h + ivlenField h
  | .l, h => lenField h
  | .g, _ => 0
  | .q, _ => 0

/-- R74: the row's command, its operands cut from the payload in stream order (key, then IV). -/
def buildInstr (op : Opcode) (h : Word32) (payload : List Byte) : Instr :=
  match op with
  | .rc4Init => .rc4Init (payload.take (lenField h))
  | .rc4Gen => .rc4Gen
  | .rc4pInit => .rc4pInit (payload.take (lenField h)) (payload.drop (lenField h))
  | .rc4pGen => .rc4pGen
  | .rc4aInit => .rc4aInit (payload.take (lenField h))
  | .rc4aGen => .rc4aGen
  | .vmpcInit => .vmpcInit (payload.take (lenField h)) (payload.drop (lenField h))
  | .vmpcGen => .vmpcGen
  | .spzInit => .spzInit (payload.take (lenField h))
  | .spzSqueeze => .spzSqueeze (countField h)
  | .spzAbsorb => .spzAbsorb (payload.take (lenField h))
  | .spzAbsorbStop => .spzAbsorbStop

/-- R71: the header from its four bytes, most significant first. -/
def headerWord (b3 b2 b1 b0 : Byte) : Word32 := b3 ++ b2 ++ b1 ++ b0

/-- R71: the four bytes of a header, most significant first. -/
def headerBytes (h : Word32) : List Byte :=
  [h.extractLsb' 24 8, h.extractLsb' 16 8, h.extractLsb' 8 8, h.extractLsb' 0 8]

/-- What the decoder finds at the head of CMD (R80). -/
inductive Decoded where
  /-- fewer bytes than the packet at the head needs: no step (R80, D27) -/
  | hold
  /-- a header that matches no row, and the bytes after its four (R77, R78) -/
  | illegal (h : Word32) (rest : List Byte)
  /-- a whole command packet, and the bytes after it -/
  | instr (i : Instr) (rest : List Byte)
deriving DecidableEq, Repr

/-- R80: decoding a header with the bytes that follow it. -/
def decodePacket (h : Word32) (rest : List Byte) : Decoded :=
  match lookupRow h with
  | none => .illegal h rest
  | some r =>
    let n := payloadLength r.format h
    if rest.length < n then .hold
    else .instr (buildInstr r.opcode h (rest.take n)) (rest.drop n)

/-- R80: decoding the head of the command stream. -/
def decode : List Byte → Decoded
  | b3 :: b2 :: b1 :: b0 :: rest => decodePacket (headerWord b3 b2 b1 b0) rest
  | _ => .hold

/-- R73, R75: a header of format K or L. -/
def headerWithLen (m : Word32) (bs : List Byte) : Word32 := m ||| BitVec.ofNat 32 bs.length

/-- R73, R75: a header of format KV, IVLEN at bits 19:10. -/
def headerWithLens (m : Word32) (key iv : List Byte) : Word32 :=
  m ||| (BitVec.ofNat 32 iv.length <<< 10) ||| BitVec.ofNat 32 key.length

/-- R73, R75: the header of a command. -/
def encodeHeader : Instr → Word32
  | .rc4Init key => headerWithLen 0x01000000 key
  | .rc4Gen => 0x02000000
  | .rc4pInit key iv => headerWithLens 0x11000000 key iv
  | .rc4pGen => 0x12000000
  | .rc4aInit key => headerWithLen 0x21000000 key
  | .rc4aGen => 0x22000000
  | .vmpcInit key iv => headerWithLens 0x31000000 key iv
  | .vmpcGen => 0x32000000
  | .spzInit key => headerWithLen 0x41000000 key
  | .spzSqueeze count => 0x42000000 ||| count.setWidth 32
  | .spzAbsorb data => headerWithLen 0x43000000 data
  | .spzAbsorbStop => 0x44000000

/-- R74: the payload of a command, key bytes before IV bytes. -/
def encodePayload : Instr → List Byte
  | .rc4Init key => key
  | .rc4Gen => []
  | .rc4pInit key iv => key ++ iv
  | .rc4pGen => []
  | .rc4aInit key => key
  | .rc4aGen => []
  | .vmpcInit key iv => key ++ iv
  | .vmpcGen => []
  | .spzInit key => key
  | .spzSqueeze _ => []
  | .spzAbsorb data => data
  | .spzAbsorbStop => []

/-- R70: the packet of a command. -/
def encode (i : Instr) : List Byte := headerBytes (encodeHeader i) ++ encodePayload i

/-- R74: the payload length a header asks for, 0 for an illegal one. -/
def headerPayloadLength (h : Word32) : Nat :=
  match lookupRow h with
  | none => 0
  | some r => payloadLength r.format h

/-- The packet of the instruction whose bits are `w`, numbered as spec/opcode_table.json numbers them:
bits 31:0 are the header and payload byte `k` is bits 32+8k+7 : 32+8k. Bits from `nbits` up are 0. -/
def tablePacket (nbits w : Nat) : List Byte :=
  let bits := w % 2 ^ nbits
  let h := BitVec.ofNat 32 bits
  headerBytes h ++
    (List.range (headerPayloadLength h)).map fun k => BitVec.ofNat 8 (bits / 2 ^ (32 + 8 * k))

/-- The instruction the decoder reads from an instruction whose bits are `w`. -/
def decodeTableWord (nbits w : Nat) : Option Instr :=
  match decode (tablePacket nbits w) with
  | .instr i _ => some i
  | .illegal _ _ => none
  | .hold => none

end Sys2Proof
end

