-- ==== Sys2Proof/Machine/Flags.lean ====
section
/-! DEFINITION. The one status register, ENGSTAT (rule R28). There are no other flags (R36). -/

namespace Sys2Proof.Machine

/-- R2, R28: the bit of `ENGSTAT.V` that belongs to an engine, its engine number. -/
def engBit : Eng → Nat
  | .rc4 => 0
  | .rc4p => 1
  | .rc4a => 2
  | .vmpc => 3
  | .spz => 4

/-- R12 `ENGSTAT.V[e]`. -/
def valid (e : Eng) (s : State) : Bool := s.engstat.getLsbD (engBit e)

/-- `V` with bit `e` set to `b`. -/
def withBit (e : Eng) (b : Bool) (v : BitVec 5) : BitVec 5 :=
  match b with
  | true => v ||| BitVec.twoPow 5 (engBit e)
  | false => v &&& ~~~ BitVec.twoPow 5 (engBit e)

/-- R12 `ENGSTAT.V[e] <- b`. -/
def setValid (e : Eng) (b : Bool) (s : State) : State :=
  { s with engstat := withBit e b s.engstat }

end Sys2Proof.Machine
end

