-- ==== Sys2Proof/Machine/Ops.lean ====
section
/-! DEFINITION. The named operations the meanings are built from: table accesses (rules R12, R51, R100),
register records, responses (R81), the rejection (R224), and the two frames every command runs in:
an INIT and a use of a valid engine. There is no return from a rejection: nothing is saved and
nothing is restored (R225). -/

namespace Sys2Proof.Machine

/-! ## Tables -/

/-- R12, R51 `T[x]`. -/
def readCell (T : Table) (x : Byte) : Byte := T[x.toNat]

/-- R12, R51 `T[x] <- v`. -/
def writeCell (T : Table) (x v : Byte) : Table := T.set x.toNat v

/-- R12 `swap(T, p, q)`: both cells are read before either is written. -/
def swapCells (T : Table) (p q : Byte) : Table :=
  writeCell (writeCell T p (readCell T q)) q (readCell T p)

/-- The table whose cell `x` holds `f x`. -/
@[irreducible] def tableOf (f : Byte → Byte) : Table :=
  ⟨((List.range 256).map fun x => f (BitVec.ofNat 8 x)).toArray, by simp⟩

/-- R100 `identity(T)`. -/
def identityTable : Table := tableOf fun x => x

/-! ## Register records -/

def putRc4 (r : PermEngine) (s : State) : State := { s with rc4 := r }
def putRc4p (r : PermEngine) (s : State) : State := { s with rc4p := r }
def putRc4a (r : Rc4aEngine) (s : State) : State := { s with rc4a := r }
def putVmpc (r : PermEngine) (s : State) : State := { s with vmpc := r }
def putSpz (r : SpzEngine) (s : State) : State := { s with spz := r }

/-! ## Responses -/

/-- R221: the code of a status. -/
def statusCode : Status → Byte
  | .ok => 0x00
  | .errKeyEmpty => 0x01
  | .errKeyTooLong => 0x02
  | .errIvLen => 0x03
  | .errNotInit => 0x04
  | .errIllegal => 0x05

/-- R81: STATUS, LEN high byte first, data. -/
def encodeRsp (r : Rsp) : List Byte :=
  statusCode r.status :: BitVec.ofNat 8 (r.data.length / 256) :: BitVec.ofNat 8 r.data.length :: r.data

/-- R80, R81: one response appended to the tail of RSP. -/
def respond (r : Rsp) (s : State) : State := { s with rsp := s.rsp ++ encodeRsp r }

/-! ## Rejection -/

/-- R224 `raise Reject(code)`: a rejected INIT of engine `e` (`invalidates = some e`) clears `V[e]`; no
register or table cell is written; the response carries the code and no data. For the other
commands and for an illegal header (`invalidates = none`) nothing but RSP changes. -/
def raiseReject (invalidates : Option Eng) (code : Status) (s : State) : State :=
  match invalidates with
  | some e => respond ⟨code, []⟩ (setValid e false s)
  | none => respond ⟨code, []⟩ s

/-! ## The two command frames -/

/-- An INIT of engine `e` (R102, R124, R140, R160, R192): rejected with the code its operand checks
give, or the engine's record is built, `V[e]` set and an OK response without data returned. -/
def initEngine (e : Eng) (check : Option Status) (build : State → State) (s : State) : State :=
  match check with
  | some code => raiseReject (some e) code s
  | none => respond ⟨.ok, []⟩ (setValid e true (build s))

/-- A command other than INIT to engine `e` (R222): rejected with `ERR_NOT_INIT` when `V[e] = 0`, or run,
its data returned in an OK response. -/
def useEngine (e : Eng) (run : State → State × List Byte) (s : State) : State :=
  match valid e s with
  | false => raiseReject none .errNotInit s
  | true => respond ⟨.ok, (run s).2⟩ (run s).1

end Sys2Proof.Machine
end

