-- ==== Sys2Proof/Machine/Rc4.lean ====
section
/-! DEFINITION. The RC4 engine (rules R101 to R103). `ksaStep`, `ksaPass` and `advance` are shared with
RC4P and RC4A. -/

namespace Sys2Proof.Machine

/-- R101: one iteration of a key-scheduling pass at position `n`, on a table and its accumulator. -/
def ksaStep (key : List Byte) (p : Table × Byte) (n : Nat) : Table × Byte :=
  let x := BitVec.ofNat 8 n
  let j := p.2 + readCell p.1 x + operandAt key n
  (swapCells p.1 x j, j)

/-- R101 `ksa_pass`: positions 0..255 ascending; the accumulator is not reset at its start. -/
@[irreducible] def ksaPass (key : List Byte) (p : Table × Byte) : Table × Byte :=
  (List.range Config.tableSize).foldl (ksaStep key) p

/-- R102: identity, accumulator 0, one pass; `i` and `j` are 0 afterwards. -/
def rc4Schedule (key : List Byte) : PermEngine :=
  ⟨0, 0, (ksaPass key (identityTable, 0)).1⟩

/-- R103: `i` by one, `j` by the cell at the new `i`, then the swap. -/
def advance (r : PermEngine) : PermEngine :=
  let i := r.i + 1
  let j := r.j + readCell r.S i
  ⟨i, j, swapCells r.S i j⟩

/-- R103: the output lookup, on the values after the swap. -/
def rc4Output (r : PermEngine) : Byte :=
  readCell r.S (readCell r.S r.i + readCell r.S r.j)

/-- RC4.INIT (R102). -/
def execRc4Init (key : List Byte) (s : State) : Host.Outcome State Fault Refusal :=
  .next (initEngine .rc4 (keyReject key.length) (putRc4 (rc4Schedule key)) s)

/-- RC4.GEN (R103). -/
def execRc4Gen (s : State) : Host.Outcome State Fault Refusal :=
  .next (useEngine .rc4
    (fun s => let r := advance s.rc4; (putRc4 r s, [rc4Output r])) s)

end Sys2Proof.Machine
end

