-- ==== Sys2Proof/Machine/Rc4a.lean ====
section
/-! DEFINITION. The RC4A dual-permutation engine (rules R140 to R143). -/

namespace Sys2Proof.Machine

/-- R141 `reverse_copy`: cell `x` of the result is cell `255 - x` of `T`. -/
def reverseTable (T : Table) : Table := tableOf fun x => readCell T (255 - x)

/-- R140: one RC4 key schedule gives `S1`, its reversal `S2`; the scalars are 0 afterwards. -/
def rc4aSchedule (key : List Byte) : Rc4aEngine :=
  let S1 := (ksaPass key (identityTable, 0)).1
  ⟨0, 0, 0, S1, reverseTable S1⟩

/-- R142 half-step A: `i` by one, `j1` and `S1` as RC4; the byte is looked up in `S2`. -/
def rc4aHalfA (r : Rc4aEngine) : Rc4aEngine × Byte :=
  let i := r.i + 1
  let j1 := r.j1 + readCell r.S1 i
  let S1 := swapCells r.S1 i j1
  ({ r with i := i, j1 := j1, S1 := S1 }, readCell r.S2 (readCell S1 i + readCell S1 j1))

/-- R142 half-step B: the same `i`, `j2` and `S2`; the byte is looked up in the swapped `S1`. -/
def rc4aHalfB (r : Rc4aEngine) : Rc4aEngine × Byte :=
  let j2 := r.j2 + readCell r.S2 r.i
  let S2 := swapCells r.S2 r.i j2
  ({ r with j2 := j2, S2 := S2 }, readCell r.S1 (readCell S2 r.i + readCell S2 j2))

/-- R142, R143: half-step A, then half-step B; the unit's high byte is `byte1`, sent first. -/
def rc4aGenerate (r : Rc4aEngine) : Rc4aEngine × List Byte :=
  let A := rc4aHalfA r
  let B := rc4aHalfB A.1
  (B.1, [A.2, B.2])

/-- RC4A.INIT (R140). -/
def execRc4aInit (key : List Byte) (s : State) : Host.Outcome State Fault Refusal :=
  .next (initEngine .rc4a (keyReject key.length) (putRc4a (rc4aSchedule key)) s)

/-- RC4A.GEN (R142). -/
def execRc4aGen (s : State) : Host.Outcome State Fault Refusal :=
  .next (useEngine .rc4a
    (fun s => let g := rc4aGenerate s.rc4a; (putRc4a g.1 s, g.2)) s)

end Sys2Proof.Machine
end

