-- ==== Sys2Proof/Machine/Params.lean ====
section
/-! DEFINITION. The values the parameters of rule R8 take in this hardware: the spec's defaults.
UNVERIFIED (log entry 3): no source confirms them (D14, D17, D18, D20). -/

namespace Sys2Proof.Machine

/-- R126 `RC4P_OUT(S, i, j)`: `S` is the table after the swap, `i` and `j` the updated registers. -/
def rc4pOut (S : Table) (i j : Byte) : Byte :=
  let x1 := (i <<< Config.rc4pShl) ^^^ (j >>> Config.rc4pShr)
  let x2 := (j <<< Config.rc4pShl) ^^^ (i >>> Config.rc4pShr)
  let t1 := readCell S i + readCell S j
  let c := readCell S x1 + readCell S x2
  let t2 := readCell S (c ^^^ Config.rc4pMask)
  let t3 := readCell S (j + readCell S j)
  (readCell S t1 + t2) ^^^ t3

/-- R161 `VMPC_KSA_STEP`: the accumulator passes through the table. -/
def vmpcKsaStep (S : Table) (j n k : Byte) : Byte := readCell S (j + readCell S n + k)

/-- R189 `SPZ_STOP_COND`. -/
def spzStopCond (a : Byte) : Bool := decide (Config.spzHalf ≤ a.toNat)

/-- R8: the parameters of this hardware, every one at the spec's default. -/
def params : Config where
  rc4pOut := rc4pOut
  vmpcKsaStep := vmpcKsaStep
  vmpcKeyIndex := .inPass
  vmpcJAfterInit := .carried
  spzStopCond := spzStopCond

end Sys2Proof.Machine
end

