-- ==== Sys2Proof/Machine/Rc4p.lean ====
section
/-! DEFINITION. The RC4+ engine (rules R120 to R126). -/

namespace Sys2Proof.Machine

/-- R122: one iteration of layer 2: two wrapping sums, combined by exclusive-or, then the swap. -/
def layer2Step (key iv : List Byte) (p : Table × Byte) (n : Nat) : Table × Byte :=
  let x := BitVec.ofNat 8 n
  let j := (p.2 + readCell p.1 x) ^^^ (operandAt key n + operandAt iv n)
  (swapCells p.1 x j, j)

/-- R122 `rc4p_layer2`: positions 127 down to 0. -/
@[irreducible] def layer2 (key iv : List Byte) (p : Table × Byte) : Table × Byte :=
  (List.range (Config.rc4pL2Start + 1)).reverse.foldl (layer2Step key iv) p

/-- R123: the position visited at zigzag count `y`: 0, 255, 1, 254, ... -/
def zigzag (y : Nat) : Nat := if y % 2 = 0 then y / 2 else 256 - (y + 1) / 2

/-- R123 `rc4p_layer3`: layer 1's update along the zigzag. -/
@[irreducible] def layer3 (key : List Byte) (p : Table × Byte) : Table × Byte :=
  ((List.range Config.tableSize).map zigzag).foldl (ksaStep key) p

/-- R120, R124: the three layers in order on one table and one accumulator, which starts at 0;
`i` and `j` are 0 afterwards. -/
def rc4pSchedule (key iv : List Byte) : PermEngine :=
  ⟨0, 0, (layer3 key (layer2 key iv (ksaPass key (identityTable, 0)))).1⟩

/-- RC4P.INIT (R124). -/
def execRc4pInit (key iv : List Byte) (s : State) : Host.Outcome State Fault Refusal :=
  .next (initEngine .rc4p (keyIvReject key.length iv.length) (putRc4p (rc4pSchedule key iv)) s)

/-- RC4P.GEN (R125): RC4's advance, then the output transform. -/
def execRc4pGen (s : State) : Host.Outcome State Fault Refusal :=
  .next (useEngine .rc4p
    (fun s => let r := advance s.rc4p; (putRc4p r s, [params.rc4pOut r.S r.i r.j])) s)

end Sys2Proof.Machine
end

