-- ==== Sys2Proof/Machine/Spritz.lean ====
section
/-! DEFINITION. The Spritz sponge engine (rules R181 to R195): the micro-operations, innermost first,
then the four commands. -/

namespace Sys2Proof.Machine

/-! ## Register updates -/

/-- `SPZ.a <- a`. -/
def spzSetA (a : Byte) (r : SpzEngine) : SpzEngine := { r with a := a }

/-- `SPZ.w <- add8(SPZ.w, 2)` (R184). -/
def spzBumpW (r : SpzEngine) : SpzEngine := { r with w := r.w + Config.spzWStep }

/-- `SPZ.a <- add8(SPZ.a, 1)` (R187, R189). -/
def spzBumpA (r : SpzEngine) : SpzEngine := { r with a := r.a + 1 }

/-- The table replaced by a function of itself. -/
def spzMapTable (f : Table → Table) (r : SpzEngine) : SpzEngine := { r with S := f r.S }

/-! ## Micro-operations -/

/-- R181 `spz_initial()`. -/
def spzInitial : SpzEngine := ⟨0, 0, 0, 0, 0, 0, identityTable⟩

/-- R182 `update()`. -/
def spzUpdate (r : SpzEngine) : SpzEngine :=
  let i := r.i + r.w
  let j := r.k + readCell r.S (r.j + readCell r.S i)
  let k := r.k + r.k + readCell r.S j
  ⟨i, j, k, r.a, r.w, r.z, swapCells r.S i j⟩

/-- R183 `output()`: the byte returned is the new `z`. -/
def spzOutput (r : SpzEngine) : SpzEngine :=
  { r with z := readCell r.S (r.j + readCell r.S (r.i + readCell r.S (r.z + r.k))) }

/-- R184: the 512 updates of a `whip`, all with the old `w`. -/
@[irreducible] def spzWhipUpdates (r : SpzEngine) : SpzEngine := spzUpdate^[Config.spzWhipUpdates] r

/-- R184 `whip()`: 512 updates, then `w` by 2. -/
def spzWhip (r : SpzEngine) : SpzEngine := spzBumpW (spzWhipUpdates r)

/-- R185: one iteration of `crush` at the pair `(v, 255 - v)`; `gt8` is the unsigned comparison. -/
def crushStep (T : Table) (v : Nat) : Table :=
  let lo := BitVec.ofNat 8 v
  let hi := BitVec.ofNat 8 (255 - v)
  if (readCell T hi).toNat < (readCell T lo).toNat then swapCells T lo hi else T

/-- R185: the pairs `v = 0..127` ascending. -/
@[irreducible] def crushTable (T : Table) : Table := (List.range Config.spzHalf).foldl crushStep T

/-- R185 `crush()`: reads and writes `S` only. -/
def spzCrush (r : SpzEngine) : SpzEngine := spzMapTable crushTable r

/-- R186 `shuffle()`: whip, crush, whip, crush, whip, then `a <- 0`. -/
def spzShuffle (r : SpzEngine) : SpzEngine :=
  spzSetA 0 (spzWhip (spzCrush (spzWhip (spzCrush (spzWhip r)))))

/-- R187: the shuffle that opens `absorb_nibble` when `a >= 128`. -/
def spzMakeRoom (r : SpzEngine) : SpzEngine :=
  if Config.spzHalf ≤ r.a.toNat then spzShuffle r else r

/-- R187: the swap of cells `a` and `128 + n`, then `a` by 1. -/
def spzPlaceNibble (n : Byte) (r : SpzEngine) : SpzEngine :=
  spzBumpA (spzMapTable (fun T => swapCells T r.a (BitVec.ofNat 8 Config.spzHalf + n)) r)

/-- R187 `absorb_nibble(n)`. -/
def spzAbsorbNibble (r : SpzEngine) (n : Byte) : SpzEngine := spzPlaceNibble n (spzMakeRoom r)

/-- R188 `absorb_byte(b)`: the low nibble, then the high nibble masked and not shifted. -/
def spzAbsorbByte (r : SpzEngine) (b : Byte) : SpzEngine :=
  spzAbsorbNibble (spzAbsorbNibble r (b &&& Config.spzLowMask)) (b &&& Config.spzHighMask)

/-- R192, R193: the bytes of a sequence absorbed in order. -/
def spzAbsorbAll (r : SpzEngine) (bs : List Byte) : SpzEngine := bs.foldl spzAbsorbByte r

/-- R189 `absorb_stop()`: no swap. -/
def spzAbsorbStop (cfg : Config) (r : SpzEngine) : SpzEngine :=
  spzBumpA (if cfg.spzStopCond r.a then spzShuffle r else r)

/-- R190, R191: the shuffle that opens `drip` and `squeeze` when `a > 0`. -/
def spzSettle (r : SpzEngine) : SpzEngine := if 0 < r.a.toNat then spzShuffle r else r

/-- R190 `drip()`: the byte returned is `z` of the result. -/
def spzDrip (r : SpzEngine) : SpzEngine := spzOutput (spzUpdate (spzSettle r))

/-- R191: `drip()` repeated, its bytes in drip order. -/
def spzDrips : Nat → SpzEngine → SpzEngine × List Byte
  | 0, r => (r, [])
  | n + 1, r =>
    let d := spzDrip r
    let rest := spzDrips n d
    (rest.1, d.z :: rest.2)

/-- R191 `squeeze(r)`. -/
def spzSqueeze (n : Nat) (r : SpzEngine) : SpzEngine × List Byte := spzDrips n (spzSettle r)

/-- R192: the initial state, then the key absorbed; no `absorb_stop`. -/
def spzConstruct (key : List Byte) : SpzEngine := spzAbsorbAll spzInitial key

/-- SPZ.INIT (R192). -/
def execSpzInit (key : List Byte) (s : State) : Host.Outcome State Fault Refusal :=
  .next (initEngine .spz (keyReject key.length) (putSpz (spzConstruct key)) s)

/-- SPZ.SQUEEZE (R195). -/
def execSpzSqueeze (count : BitVec 16) (s : State) : Host.Outcome State Fault Refusal :=
  .next (useEngine .spz
    (fun s => let q := spzSqueeze count.toNat s.spz; (putSpz q.1 s, q.2)) s)

/-- SPZ.ABSORB (R193). -/
def execSpzAbsorb (data : List Byte) (s : State) : Host.Outcome State Fault Refusal :=
  .next (useEngine .spz (fun s => (putSpz (spzAbsorbAll s.spz data) s, [])) s)

/-- SPZ.ABSORB_STOP (R194). -/
def execSpzAbsorbStop (s : State) : Host.Outcome State Fault Refusal :=
  .next (useEngine .spz (fun s => (putSpz (spzAbsorbStop params s.spz) s, [])) s)

end Sys2Proof.Machine
end

