-- ==== Sys2Proof/Machine/Vmpc.lean ====
section
/-! DEFINITION. The VMPC engine (rules R160 to R163). -/

namespace Sys2Proof.Machine

/-- R161 `VMPC_KEY_INDEX`: the operand index at position `n` of pass number `pass` (0, 1, 2). -/
def vmpcIndex (mode : VmpcKeyIndex) (pass n : Nat) : Nat :=
  match mode with
  | .inPass => n
  | .running => Config.tableSize * pass + n

/-- R161: one iteration: the accumulator by `VMPC_KSA_STEP`, then the swap. -/
def vmpcStep (cfg : Config) (src : List Byte) (pass : Nat) (p : Table × Byte) (n : Nat) : Table × Byte :=
  let x := BitVec.ofNat 8 n
  let j := cfg.vmpcKsaStep p.1 p.2 x (operandAt src (vmpcIndex cfg.vmpcKeyIndex pass n))
  (swapCells p.1 x j, j)

/-- R161 `vmpc_pass`: positions 0..255 ascending. -/
@[irreducible] def vmpcPass (cfg : Config) (src : List Byte) (p : Table × Byte) (pass : Nat) : Table × Byte :=
  (List.range Config.tableSize).foldl (vmpcStep cfg src pass) p

/-- R160: three full passes folding in one input. -/
def vmpcFold (cfg : Config) (src : List Byte) (p : Table × Byte) : Table × Byte :=
  (List.range Config.vmpcPasses).foldl (vmpcPass cfg src) p

/-- R160 `VMPC_J_AFTER_INIT`: the accumulator left by the sixth pass, or 0. -/
def vmpcFinalJ (mode : VmpcJAfterInit) (j : Byte) : Byte :=
  match mode with
  | .carried => j
  | .zero => 0

/-- R160: identity, accumulator 0, three passes over the key, three over the IV, `i` 0. -/
def vmpcSchedule (cfg : Config) (key iv : List Byte) : PermEngine :=
  let p := vmpcFold cfg iv (vmpcFold cfg key (identityTable, 0))
  ⟨0, vmpcFinalJ cfg.vmpcJAfterInit p.2, p.1⟩

/-- R162: look up at the old `j`, then add; the output is read before the swap; `i` stays (R163). -/
def vmpcGenerate (r : PermEngine) : PermEngine × Byte :=
  let a := readCell r.S r.i
  let j := readCell r.S r.j + a
  let out := readCell r.S (readCell r.S (readCell r.S j + 1))
  (⟨r.i, j, swapCells r.S r.i j⟩, out)

/-- VMPC.INIT (R160). -/
def execVmpcInit (key iv : List Byte) (s : State) : Host.Outcome State Fault Refusal :=
  .next (initEngine .vmpc (keyIvReject key.length iv.length) (putVmpc (vmpcSchedule params key iv)) s)

/-- VMPC.GEN (R162). -/
def execVmpcGen (s : State) : Host.Outcome State Fault Refusal :=
  .next (useEngine .vmpc
    (fun s => let g := vmpcGenerate s.vmpc; (putVmpc g.1 s, [g.2])) s)

end Sys2Proof.Machine
end

