-- ==== Sys2Proof/Machine/Dispatch.lean ====
section
/-! DEFINITION. `exec` (rules R6, R79): one command on the state from which its packet has been removed;
its response is appended to RSP. -/

namespace Sys2Proof.Machine

def exec (i : Instr) (s : State) : Host.Outcome State Fault Refusal :=
  match i with
  | .rc4Init key => Sys2Proof.Machine.execRc4Init key s
  | .rc4Gen => Sys2Proof.Machine.execRc4Gen s
  | .rc4pInit key iv => Sys2Proof.Machine.execRc4pInit key iv s
  | .rc4pGen => Sys2Proof.Machine.execRc4pGen s
  | .rc4aInit key => Sys2Proof.Machine.execRc4aInit key s
  | .rc4aGen => Sys2Proof.Machine.execRc4aGen s
  | .vmpcInit key iv => Sys2Proof.Machine.execVmpcInit key iv s
  | .vmpcGen => Sys2Proof.Machine.execVmpcGen s
  | .spzInit key => Sys2Proof.Machine.execSpzInit key s
  | .spzSqueeze count => Sys2Proof.Machine.execSpzSqueeze count s
  | .spzAbsorb data => Sys2Proof.Machine.execSpzAbsorb data s
  | .spzAbsorbStop => Sys2Proof.Machine.execSpzAbsorbStop s

end Sys2Proof.Machine
end

