-- ==== Sys2Proof/Machine/Transport.lean ====
section
/-! DEFINITION. The transport (rules R30, R78, R80): fetching a packet from CMD, the illegal header's
meaning, and the moves of the host (R30, R259), which are inputs and no part of `step`. -/

namespace Sys2Proof.Machine

/-- R80: what stands at the head of CMD. -/
def fetch (s : State) : Decoded := decode s.cmd

/-- R80: CMD with the fetched packet removed, `rest` being the bytes after it. -/
def consume (rest : List Byte) (s : State) : State := { s with cmd := rest }

/-- R78, R224: the command `ILLEGAL(h)`: the response `ERR_ILLEGAL`, nothing else. -/
def execIllegal (s : State) : Host.Outcome State Fault Refusal :=
  .next (raiseReject none .errIllegal s)

/-- R30: the host appends bytes to the tail of CMD. -/
def hostSend (bs : List Byte) (s : State) : State := { s with cmd := s.cmd ++ bs }

/-- R30: the host removes bytes from the head of RSP. -/
def hostTake (n : Nat) (s : State) : State := { s with rsp := s.rsp.drop n }

/-- R250, R259: the platform's reset; nothing of the old state is left (log entry 1 on its contents). -/
def hostReset (_ : State) : State := State.reset

/-- A packet placed at the head of CMD, before what stands there. -/
def placePacket (packet : List Byte) (s : State) : State := { s with cmd := packet ++ s.cmd }

end Sys2Proof.Machine
end

