-- ==== Sys2Proof/Machine/Step.lean ====
section
/-! DEFINITION. The transport step, CORE's only move (rule R80). -/

namespace Sys2Proof.Machine

/-- R80: a whole packet is removed from CMD and its command executed; with no whole packet there is
no step (`Fault.hold`). -/
def step (s : State) : Host.Outcome State Fault Refusal :=
  match fetch s with
  | .hold => .fault .hold
  | .illegal _ rest => execIllegal (consume rest s)
  | .instr i rest => exec i (consume rest s)

/-- `s` with the packet of the table word `w` at the head of CMD, where `step` fetches (log entry 4). -/
def State.withFetchWord (s : State) (nbits w : Nat) : State := placePacket (tablePacket nbits w) s

end Sys2Proof.Machine
end

