-- ==== Sys2Proof/Safety.lean ====
section
/-! DEFINITION. The terms claims are stated in: the invariants of a safe run, when two states cannot be
told apart, and what it is for a table to come out of a schedule. -/

namespace Sys2Proof

open Sys2Proof.Machine

/-! ## Tables -/

/-- R16, R27: no duplicates and all 256 values present. -/
def IsPermutation (T : Table) : Prop :=
  (∀ x y : Byte, readCell T x = readCell T y → x = y) ∧ ∀ v : Byte, ∃ x : Byte, readCell T x = v

/-- R100: every cell holds its own address. -/
def IsIdentity (T : Table) : Prop := ∀ x : Byte, readCell T x = x

/-- R12: `U` is `T` with the contents of cells `p` and `q` exchanged and every other cell unchanged. -/
def Exchanged (T U : Table) (p q : Byte) : Prop :=
  ∀ x : Byte, readCell U x =
    if x = p then readCell T q else if x = q then readCell T p else readCell T x

/-- The shape of every schedule pass (R101, R122, R123, R161): `len` iterations, the `n`th at position
`pos n`: the accumulator becomes `acc n` of the table and the accumulator so far, then the cells at
the position and at the new accumulator are exchanged. From `(T, j)` the pass leads to `(U, k)`. -/
def SwapPass (len : Nat) (pos : Nat → Byte) (acc : Nat → Table → Byte → Byte)
    (T : Table) (j : Byte) (U : Table) (k : Byte) : Prop :=
  ∃ (Ts : Nat → Table) (js : Nat → Byte),
    Ts 0 = T ∧ js 0 = j ∧ Ts len = U ∧ js len = k ∧
    ∀ n, n < len →
      js (n + 1) = acc n (Ts n) (js n) ∧ Exchanged (Ts n) (Ts (n + 1)) (pos n) (js (n + 1))

/-- R101: one RC4 key-scheduling pass. -/
def KsaPass (key : List Byte) : Table → Byte → Table → Byte → Prop :=
  SwapPass 256 (fun n => BitVec.ofNat 8 n)
    (fun n T j => j + readCell T (BitVec.ofNat 8 n) + operandAt key n)

/-- R123: the position at zigzag count `y`. -/
def zigzagPosition (y : Nat) : Nat := if y % 2 = 0 then y / 2 else 256 - (y + 1) / 2

/-! ## Spritz transitions -/

/-- R182: `f` is `e` after one `update`: the new `i`, the old `j` and `k` in the sums, the table read
before the exchange. -/
def Updated (e f : SpzEngine) : Prop :=
  f.i = e.i + e.w ∧
  f.j = e.k + readCell e.S (e.j + readCell e.S f.i) ∧
  f.k = e.k + e.k + readCell e.S f.j ∧
  Exchanged e.S f.S f.i f.j ∧
  f.a = e.a ∧ f.w = e.w ∧ f.z = e.z

/-- R190 on an engine with `a = 0`: one `update`, then one `output`, whose byte is the new `z`. -/
def Dripped (e f : SpzEngine) : Prop :=
  ∃ g : SpzEngine, Updated e g ∧
    f = { g with z := readCell g.S (g.j + readCell g.S (g.i + readCell g.S (e.z + g.k))) }

/-- R184: `f` is `e` after one `whip`. -/
def Whipped (e f : SpzEngine) : Prop :=
  ∃ E : Nat → SpzEngine, E 0 = e ∧ (∀ n, n < 512 → Updated (E n) (E (n + 1))) ∧
    f = { E 512 with w := (E 512).w + 2 }

/-- R185: `f` is `e` after one `crush`: in each of the 128 pairs of cells `(v, 255 - v)` the smaller
value (unsigned) stands at the lower address. -/
def Crushed (e f : SpzEngine) : Prop :=
  f = { e with S := f.S } ∧
  ∀ v : Byte, v.toNat < 128 →
    readCell f.S v =
      (if (readCell e.S (255 - v)).toNat < (readCell e.S v).toNat
       then readCell e.S (255 - v) else readCell e.S v) ∧
    readCell f.S (255 - v) =
      (if (readCell e.S (255 - v)).toNat < (readCell e.S v).toNat
       then readCell e.S v else readCell e.S (255 - v))

/-! ## Spritz absorption -/

/-- R187: `f` is `e` after one nibble `n`. -/
def AbsorbedNibble (n : Byte) (e f : SpzEngine) : Prop :=
  ∃ e' : SpzEngine, e' = (if 128 ≤ e.a.toNat then spzShuffle e else e) ∧
    Exchanged e'.S f.S e'.a (128 + n) ∧ f = { e' with a := e'.a + 1, S := f.S }

/-- R188: `f` is `e` after one byte: the low nibble, then the high nibble unshifted. -/
def AbsorbedByte (b : Byte) (e f : SpzEngine) : Prop :=
  ∃ g : SpzEngine, AbsorbedNibble (b &&& 0x0F) e g ∧ AbsorbedNibble (b &&& 0xF0) g f

/-- R192, R193: `f` is `e` after the bytes of `bs` in order. -/
def AbsorbedAll (bs : List Byte) (e f : SpzEngine) : Prop :=
  ∃ E : Nat → SpzEngine, E 0 = e ∧ E bs.length = f ∧
    ∀ n (h : n < bs.length), AbsorbedByte bs[n] (E n) (E (n + 1))

/-! ## Invariants -/

/-- R27: every table of a valid engine is a permutation. -/
def PermInvariant (s : State) : Prop :=
  (valid .rc4 s = true → IsPermutation s.rc4.S) ∧
  (valid .rc4p s = true → IsPermutation s.rc4p.S) ∧
  (valid .rc4a s = true → IsPermutation s.rc4a.S1 ∧ IsPermutation s.rc4a.S2) ∧
  (valid .vmpc s = true → IsPermutation s.vmpc.S) ∧
  (valid .spz s = true → IsPermutation s.spz.S)

/-- R35: between commands the absorb counter of a valid Spritz engine is at most 128. -/
def SpzCounterInvariant (s : State) : Prop := valid .spz s = true → s.spz.a.toNat ≤ 128

/-- R196 (e): `w` and `i` of a valid Spritz engine are even. -/
def SpzEvenInvariant (s : State) : Prop :=
  valid .spz s = true → s.spz.w.toNat % 2 = 0 ∧ s.spz.i.toNat % 2 = 0

/-- R163: `VMPC.i` is 0 for the whole life of a valid engine. -/
def VmpcIndexInvariant (s : State) : Prop := valid .vmpc s = true → s.vmpc.i = 0

/-! ## Comparing states -/

/-- The two states hold the same record for engine `e`. -/
def SameRecord (e : Eng) (s t : State) : Prop :=
  match e with
  | .rc4 => s.rc4 = t.rc4
  | .rc4p => s.rc4p = t.rc4p
  | .rc4a => s.rc4a = t.rc4a
  | .vmpc => s.vmpc = t.vmpc
  | .spz => s.spz = t.spz

/-- U2, U15: the states agree on everything but the contents of engines that are not valid. -/
def Indistinguishable (s t : State) : Prop :=
  s.engstat = t.engstat ∧ s.cmd = t.cmd ∧ s.rsp = t.rsp ∧ ∀ e, valid e s = true → SameRecord e s t

/-- Commands executed one after another, without the transport. -/
def execMany : List Instr → State → Option State
  | [], s => some s
  | i :: is, s =>
    match exec i s with
    | .next t => execMany is t
    | .fault _ => none
    | .refused _ => none

end Sys2Proof
end

