-- ==== Sys2Proof/Certificates/Slice0/Obligations.lean ====
section
/-! DEFINITION. The statements about CORE, for the provers. Each cites the rules of spec/ it formalises;
`Exchanged`, `SwapPass`, `KsaPass`, `Updated`, `AbsorbedAll` and the invariants are in
Sys2Proof/Safety.lean. A result statement of a command writes the next state as the old one with the
changed fields replaced, so it states the frame as well: every engine, valid bit, table cell and
stream not named there is unchanged. -/

open Sys2Proof Sys2Proof.Machine

/-! ## Encoding -/

/-- R70, R71, R73, R74, R75: decoding the packet of a well-formed command, with any bytes after it, gives
back the command with every operand, and leaves those bytes. -/
def Obligations.DecodeEncodeAgree : Prop :=
  ∀ (i : Instr) (rest : List Byte), i.wellFormed = true → decode (encode i ++ rest) = .instr i rest

/-- R74, R75: whatever the decoder takes for a command is the packet of that command, so no two packets
decode to one command. -/
def Obligations.DecodedPacketIsItsEncoding : Prop :=
  ∀ (bs : List Byte) (i : Instr) (rest : List Byte),
    decode bs = .instr i rest → i.wellFormed = true ∧ bs = encode i ++ rest

/-- R85: the worked encodings, packets and responses. -/
def Obligations.WorkedEncodings : Prop :=
  decode [0x01, 0x00, 0x00, 0x03, 0x4B, 0x65, 0x79] = .instr (.rc4Init [0x4B, 0x65, 0x79]) [] ∧
  decode [0x02, 0x00, 0x00, 0x00] = .instr .rc4Gen [] ∧
  decode [0x11, 0x00, 0x20, 0x08, 0x01, 0x23, 0x45, 0x67, 0x89, 0xAB, 0xCD, 0xEF,
      0xF0, 0xE1, 0xD2, 0xC3, 0xB4, 0xA5, 0x96, 0x87] =
    .instr (.rc4pInit [0x01, 0x23, 0x45, 0x67, 0x89, 0xAB, 0xCD, 0xEF]
      [0xF0, 0xE1, 0xD2, 0xC3, 0xB4, 0xA5, 0x96, 0x87]) [] ∧
  decode [0x31, 0x00, 0x08, 0x01, 0x00, 0x01, 0x02] = .instr (.vmpcInit [0x00] [0x01, 0x02]) [] ∧
  decode [0x22, 0x00, 0x00, 0x00] = .instr .rc4aGen [] ∧
  decode [0x41, 0x00, 0x00, 0x08, 0x01, 0x23, 0x45, 0x67, 0x89, 0xAB, 0xCD, 0xEF] =
    .instr (.spzInit [0x01, 0x23, 0x45, 0x67, 0x89, 0xAB, 0xCD, 0xEF]) [] ∧
  decode [0x43, 0x00, 0x00, 0x01, 0xFF] = .instr (.spzAbsorb [0xFF]) [] ∧
  decode [0x44, 0x00, 0x00, 0x00] = .instr .spzAbsorbStop [] ∧
  decode [0x42, 0x00, 0x00, 0x10] = .instr (.spzSqueeze 16) [] ∧
  decode [0x01, 0x00, 0x00, 0x00] = .instr (.rc4Init []) [] ∧
  decode [0x00, 0x00, 0x00, 0x00] = .illegal 0x00000000 [] ∧
  decode [0x02, 0x00, 0x00, 0x01] = .illegal 0x02000001 [] ∧
  decode [0x03, 0x00, 0x00, 0x00] = .illegal 0x03000000 [] ∧
  encodeRsp ⟨.ok, []⟩ = [0x00, 0x00, 0x00] ∧
  encodeRsp ⟨.ok, [0xEB]⟩ = [0x00, 0x00, 0x01, 0xEB] ∧
  encodeRsp ⟨.errIvLen, []⟩ = [0x03, 0x00, 0x00]

/-- R75: no header matches two rows of the opcode map. -/
def Obligations.OpcodeRowsDisjoint : Prop :=
  ∀ r ∈ opcodeTable, ∀ r' ∈ opcodeTable, ∀ h : Word32,
    r.selects h = true → r'.selects h = true → r = r'

/-- R77: exactly these headers are illegal: ENG 5..15; OP 0 or 5..15; OP 3 or 4 on an engine other than
SPZ; RSV nonzero; a nonzero must-be-zero bit of the header's format. -/
def Obligations.IllegalHeaderForms : Prop :=
  ∀ h : Word32,
    lookupRow h = none ↔
      5 ≤ (h.extractLsb' 28 4).toNat ∨
      (h.extractLsb' 24 4).toNat = 0 ∨ 5 ≤ (h.extractLsb' 24 4).toNat ∨
      (3 ≤ (h.extractLsb' 24 4).toNat ∧ (h.extractLsb' 28 4).toNat ≠ 4) ∨
      (h.extractLsb' 20 4).toNat ≠ 0 ∨
      ((h.extractLsb' 24 4).toNat = 1 ∧
        ((h.extractLsb' 28 4).toNat = 0 ∨ (h.extractLsb' 28 4).toNat = 2 ∨
          (h.extractLsb' 28 4).toNat = 4) ∧ h.extractLsb' 10 10 ≠ 0) ∨
      ((h.extractLsb' 24 4).toNat = 3 ∧ h.extractLsb' 10 10 ≠ 0) ∨
      ((((h.extractLsb' 24 4).toNat = 2 ∧ (h.extractLsb' 28 4).toNat ≠ 4) ∨
        (h.extractLsb' 24 4).toNat = 4) ∧ h.extractLsb' 0 20 ≠ 0) ∨
      ((h.extractLsb' 24 4).toNat = 2 ∧ (h.extractLsb' 28 4).toNat = 4 ∧ h.extractLsb' 16 4 ≠ 0)

/-! ## Transport -/

/-- R80: when the bytes at the head of CMD decode to a command, the step is `exec` of that command on the
state from which exactly that packet is removed. -/
def Obligations.StepRunsDecodedCommand : Prop :=
  ∀ (s : State) (i : Instr) (rest : List Byte),
    decode s.cmd = .instr i rest → step s = exec i { s with cmd := rest }

/-- R78: an illegal header consumes exactly its own four bytes, changes no engine state and no valid bit,
and is answered with `ERR_ILLEGAL` and no data. -/
def Obligations.IllegalHeaderAnswered : Prop :=
  ∀ (s : State) (b3 b2 b1 b0 : Byte) (rest : List Byte),
    s.cmd = b3 :: b2 :: b1 :: b0 :: rest → lookupRow (b3 ++ b2 ++ b1 ++ b0) = none →
    step s = .next { s with cmd := rest, rsp := s.rsp ++ [0x05, 0x00, 0x00] }

/-- R80, U6: there is no step exactly when CMD holds fewer than four bytes or fewer bytes than the packet
at its head needs; in every other state there is a next state. That the step answers the fault `hold`
there is the model's way to say it (log entry 5). -/
def Obligations.StepHoldsOnIncompletePacket : Prop :=
  ∀ s : State,
    (step s = .fault .hold ↔
      s.cmd.length < 4 ∨
      ∃ (b3 b2 b1 b0 : Byte) (rest : List Byte), s.cmd = b3 :: b2 :: b1 :: b0 :: rest ∧
        rest.length < headerPayloadLength (b3 ++ b2 ++ b1 ++ b0)) ∧
    (step s ≠ .fault .hold → ∃ t, step s = .next t)

/-- R6, R230: `exec` is total: it never gets stuck and never faults. -/
def Obligations.EveryCommandHasNextState : Prop :=
  ∀ (i : Instr) (s : State), ∃ t, exec i s = .next t

/-- R81: every step appends exactly one response: a status of 0 to 5, the length of the data high byte
first, the data; with a nonzero status there is no data. -/
def Obligations.EveryStepAppendsOneResponse : Prop :=
  ∀ s t : State, step s = .next t →
    ∃ (status : Byte) (data : List Byte),
      t.rsp = s.rsp ++ [status, BitVec.ofNat 8 (data.length / 256), BitVec.ofNat 8 data.length] ++ data ∧
      data.length ≤ 65535 ∧ status.toNat ≤ 5 ∧ (status ≠ 0 → data = [])

/-- R74, R80: every step removes exactly one packet from the head of CMD, the whole payload of a
rejected command included. -/
def Obligations.EveryStepRemovesOnePacket : Prop :=
  ∀ s t : State, step s = .next t →
    ∃ (b3 b2 b1 b0 : Byte) (payload : List Byte),
      s.cmd = b3 :: b2 :: b1 :: b0 :: (payload ++ t.cmd) ∧
      payload.length = headerPayloadLength (b3 ++ b2 ++ b1 ++ b0)

/-- R30, R80, P5: bytes the host appends during a run change nothing but the tail of CMD, so the result
does not depend on where the command stream is cut into bursts. -/
def Obligations.BurstsUnobservable : Prop :=
  ∀ (k : Nat) (s t : State) (bs : List Byte),
    Host.Core.run Sys2Proof.core k s = .next t →
    Host.Core.run Sys2Proof.core k (hostSend bs s) = .next (hostSend bs t)

/-- R30, R259: when the host removes response bytes, no later step is different for it. -/
def Obligations.HostReadingUnobservable : Prop :=
  ∀ (s t : State) (n : Nat), n ≤ s.rsp.length → step s = .next t →
    step (hostTake n s) = .next (hostTake n t)

/-! ## Reset and what is unspecified -/

/-- R250, R252: after reset no engine is valid and both streams are empty, and every command other than
an INIT is answered with `ERR_NOT_INIT` and changes nothing else. -/
def Obligations.ResetEnginesUnusable : Prop :=
  State.reset.engstat = 0 ∧ State.reset.cmd = [] ∧ State.reset.rsp = [] ∧
  ∀ i : Instr, i.isInit = false →
    exec i State.reset = .next { State.reset with rsp := [0x04, 0x00, 0x00] }

/-- R33, R224, U2, U15: the contents of an engine that is not valid are never observed: two states that
differ only there stay so after a step and give the same response bytes. In particular the register
and table values the model chose for reset (log entry 1) reach no response. -/
def Obligations.UnspecifiedContentsUnobservable : Prop :=
  ∀ s t : State, Indistinguishable s t →
    (step s = .fault .hold ∧ step t = .fault .hold) ∨
    ∃ s' t' : State, step s = .next s' ∧ step t = .next t' ∧ Indistinguishable s' t'

/-! ## Rejections and the valid bits -/

/-- R222, R223, R224: RC4.INIT, RC4A.INIT and SPZ.INIT with a key of 0 or more than 256 bytes clear their
engine's valid bit, answer `ERR_KEY_EMPTY` or `ERR_KEY_TOO_LONG`, and change nothing else. -/
def Obligations.KeyOnlyInitRejections : Prop :=
  ∀ (key : List Byte) (s : State) (code : Byte),
    (key.length = 0 ∧ code = 0x01) ∨ (256 < key.length ∧ code = 0x02) →
    exec (.rc4Init key) s =
      .next { s with engstat := s.engstat &&& 0b11110#5, rsp := s.rsp ++ [code, 0x00, 0x00] } ∧
    exec (.rc4aInit key) s =
      .next { s with engstat := s.engstat &&& 0b11011#5, rsp := s.rsp ++ [code, 0x00, 0x00] } ∧
    exec (.spzInit key) s =
      .next { s with engstat := s.engstat &&& 0b01111#5, rsp := s.rsp ++ [code, 0x00, 0x00] }

/-- R222, R223, R224: RC4P.INIT and VMPC.INIT, with the key's checks before the IV's. -/
def Obligations.KeyIvInitRejections : Prop :=
  ∀ (key iv : List Byte) (s : State) (code : Byte),
    (key.length = 0 ∧ code = 0x01) ∨ (256 < key.length ∧ code = 0x02) ∨
      (1 ≤ key.length ∧ key.length ≤ 256 ∧ iv.length ≠ key.length ∧ code = 0x03) →
    exec (.rc4pInit key iv) s =
      .next { s with engstat := s.engstat &&& 0b11101#5, rsp := s.rsp ++ [code, 0x00, 0x00] } ∧
    exec (.vmpcInit key iv) s =
      .next { s with engstat := s.engstat &&& 0b10111#5, rsp := s.rsp ++ [code, 0x00, 0x00] }

/-- R28, R222: each command other than INIT, to an engine whose valid bit is 0, is answered with
`ERR_NOT_INIT` and changes nothing else. -/
def Obligations.UseOfInvalidEngineRejected : Prop :=
  ∀ (s : State) (count : BitVec 16) (data : List Byte),
    (s.engstat.getLsbD 0 = false →
      exec .rc4Gen s = .next { s with rsp := s.rsp ++ [0x04, 0x00, 0x00] }) ∧
    (s.engstat.getLsbD 1 = false →
      exec .rc4pGen s = .next { s with rsp := s.rsp ++ [0x04, 0x00, 0x00] }) ∧
    (s.engstat.getLsbD 2 = false →
      exec .rc4aGen s = .next { s with rsp := s.rsp ++ [0x04, 0x00, 0x00] }) ∧
    (s.engstat.getLsbD 3 = false →
      exec .vmpcGen s = .next { s with rsp := s.rsp ++ [0x04, 0x00, 0x00] }) ∧
    (s.engstat.getLsbD 4 = false →
      exec (.spzSqueeze count) s = .next { s with rsp := s.rsp ++ [0x04, 0x00, 0x00] } ∧
      exec (.spzAbsorb data) s = .next { s with rsp := s.rsp ++ [0x04, 0x00, 0x00] } ∧
      exec .spzAbsorbStop s = .next { s with rsp := s.rsp ++ [0x04, 0x00, 0x00] })

/-- R28, R224, R228: only an INIT of engine `e` changes `V[e]`: to 1 when it is answered `OK`, to 0 when
it is rejected. Every other command leaves it. -/
def Obligations.ValidBitsFollowInits : Prop :=
  ∀ (i : Instr) (s t : State) (e : Eng), exec i s = .next t →
    (i.isInit = true ∧ i.eng = e →
      ∃ code : Byte, t.rsp = s.rsp ++ [code, 0x00, 0x00] ∧ (valid e t = true ↔ code = 0x00)) ∧
    (¬(i.isInit = true ∧ i.eng = e) → valid e t = valid e s)

/-- R17, R254: a successful INIT leaves its engine in a state that depends on the operands alone, whatever
the engine held and whether or not it was valid. -/
def Obligations.InitIgnoresOldState : Prop :=
  ∀ (i : Instr) (s s' t t' : State), i.isInit = true →
    exec i s = .next t → exec i s' = .next t' → valid i.eng t = true →
    SameRecord i.eng t t' ∧ valid i.eng t' = true

/-! ## RC4 -/

/-- R100, R101, R102: RC4.INIT with a key of 1..256 bytes completes: the table is the identity after one
key-scheduling pass from accumulator 0, `i = j = 0`, `V[0] = 1`, an OK response. -/
def Obligations.Rc4InitCompletes : Prop :=
  ∀ (key : List Byte) (s : State), 1 ≤ key.length → key.length ≤ 256 →
    ∃ t : State, exec (.rc4Init key) s = .next t ∧
      (∃ (T : Table) (j : Byte), IsIdentity T ∧ KsaPass key T 0 t.rc4.S j) ∧
      t.rc4.i = 0 ∧ t.rc4.j = 0 ∧
      t = { s with rc4 := t.rc4, engstat := s.engstat ||| 0b00001#5,
                   rsp := s.rsp ++ [0x00, 0x00, 0x00] }

/-- R103: RC4.GEN on a valid engine completes: `i` by one, `j` by the cell at the new `i`, the two cells
exchanged, and the byte looked up after the exchange. On an engine that is not valid it is answered
`ERR_NOT_INIT` and changes nothing else. -/
def Obligations.Rc4GenCompletes : Prop :=
  ∀ s : State,
    (s.engstat.getLsbD 0 = true →
      ∃ t : State, exec .rc4Gen s = .next t ∧
        t.rc4.i = s.rc4.i + 1 ∧
        t.rc4.j = s.rc4.j + readCell s.rc4.S t.rc4.i ∧
        Exchanged s.rc4.S t.rc4.S t.rc4.i t.rc4.j ∧
        t = { s with rc4 := t.rc4, rsp := s.rsp ++ [0x00, 0x00, 0x01,
                readCell t.rc4.S (readCell t.rc4.S t.rc4.i + readCell t.rc4.S t.rc4.j)] }) ∧
    (s.engstat.getLsbD 0 = false →
      exec .rc4Gen s = .next { s with rsp := s.rsp ++ [0x04, 0x00, 0x00] })

/-! ## RC4+ -/

/-- R120 to R124: RC4P.INIT with a key of 1..256 bytes and an IV as long completes: identity, then the
three layers on one table and one accumulator, which starts at 0 and is not reset between them;
`i = j = 0`, `V[1] = 1`, an OK response. -/
def Obligations.Rc4pInitCompletes : Prop :=
  ∀ (key iv : List Byte) (s : State), 1 ≤ key.length → key.length ≤ 256 → iv.length = key.length →
    ∃ t : State, exec (.rc4pInit key iv) s = .next t ∧
      (∃ (T0 T1 T2 : Table) (j1 j2 j3 : Byte),
        IsIdentity T0 ∧
        KsaPass key T0 0 T1 j1 ∧
        SwapPass 128 (fun n => BitVec.ofNat 8 (127 - n))
          (fun n T j => (j + readCell T (BitVec.ofNat 8 (127 - n))) ^^^
            (operandAt key (127 - n) + operandAt iv (127 - n))) T1 j1 T2 j2 ∧
        SwapPass 256 (fun y => BitVec.ofNat 8 (zigzagPosition y))
          (fun y T j => j + readCell T (BitVec.ofNat 8 (zigzagPosition y)) +
            operandAt key (zigzagPosition y)) T2 j2 t.rc4p.S j3) ∧
      t.rc4p.i = 0 ∧ t.rc4p.j = 0 ∧
      t = { s with rc4p := t.rc4p, engstat := s.engstat ||| 0b00010#5,
                   rsp := s.rsp ++ [0x00, 0x00, 0x00] }

/-- R125, R126: RC4P.GEN on a valid engine completes: RC4's advance and swap, then the output transform,
with `x1 = i[2:0] ++ j[7:3]` and `x2 = j[2:0] ++ i[7:3]`. The transform is the spec's decided default
`RC4P_OUT` (D14; log entry 3). -/
def Obligations.Rc4pGenCompletes : Prop :=
  ∀ s : State, s.engstat.getLsbD 1 = true →
    ∃ t : State, exec .rc4pGen s = .next t ∧
      t.rc4p.i = s.rc4p.i + 1 ∧
      t.rc4p.j = s.rc4p.j + readCell s.rc4p.S t.rc4p.i ∧
      Exchanged s.rc4p.S t.rc4p.S t.rc4p.i t.rc4p.j ∧
      ∃ x1 x2 t1 c t2 t3 : Byte,
        x1 = t.rc4p.i.extractLsb' 0 3 ++ t.rc4p.j.extractLsb' 3 5 ∧
        x2 = t.rc4p.j.extractLsb' 0 3 ++ t.rc4p.i.extractLsb' 3 5 ∧
        t1 = readCell t.rc4p.S t.rc4p.i + readCell t.rc4p.S t.rc4p.j ∧
        c = readCell t.rc4p.S x1 + readCell t.rc4p.S x2 ∧
        t2 = readCell t.rc4p.S (c ^^^ 0xAA) ∧
        t3 = readCell t.rc4p.S (t.rc4p.j + readCell t.rc4p.S t.rc4p.j) ∧
        t = { s with rc4p := t.rc4p, rsp := s.rsp ++ [0x00, 0x00, 0x01,
                (readCell t.rc4p.S t1 + t2) ^^^ t3] }

/-- R127: from the same registers, the states of RC4P under repeated GEN are RC4's. -/
def Obligations.Rc4pStatesFollowRc4 : Prop :=
  ∀ (m : Nat) (s : State), s.engstat.getLsbD 0 = true → s.engstat.getLsbD 1 = true →
    s.rc4p = s.rc4 →
    ∃ t u : State, execMany (List.replicate m .rc4Gen) s = some t ∧
      execMany (List.replicate m .rc4pGen) s = some u ∧ u.rc4p = t.rc4

/-- R122, T10 (e): RC4P.INIT reads no IV byte at a position above 127. -/
def Obligations.Rc4pInitIgnoresLateIvBytes : Prop :=
  ∀ (key iv iv' : List Byte) (s : State), iv.length = iv'.length → iv.length = key.length →
    (∀ n, n < 128 → iv[n]? = iv'[n]?) →
    exec (.rc4pInit key iv) s = exec (.rc4pInit key iv') s

/-! ## RC4A -/

/-- R140, R141: RC4A.INIT with a key of 1..256 bytes completes: `S1` by one RC4 key schedule, `S2` its
reversal, `i = j1 = j2 = 0`, `V[2] = 1`, an OK response. -/
def Obligations.Rc4aInitCompletes : Prop :=
  ∀ (key : List Byte) (s : State), 1 ≤ key.length → key.length ≤ 256 →
    ∃ t : State, exec (.rc4aInit key) s = .next t ∧
      (∃ (T : Table) (j : Byte), IsIdentity T ∧ KsaPass key T 0 t.rc4a.S1 j) ∧
      (∀ x : Byte, readCell t.rc4a.S2 x = readCell t.rc4a.S1 (255 - x)) ∧
      t.rc4a.i = 0 ∧ t.rc4a.j1 = 0 ∧ t.rc4a.j2 = 0 ∧
      t = { s with rc4a := t.rc4a, engstat := s.engstat ||| 0b00100#5,
                   rsp := s.rsp ++ [0x00, 0x00, 0x00] }

/-- R142, R143: RC4A.GEN on a valid engine completes: half-step A on `S1`, its byte from `S2` before that
table's swap, then half-step B on `S2` with the same `i`, its byte from the swapped `S1`; the unit is
sent high byte first. On an engine that is not valid it is answered `ERR_NOT_INIT` and changes nothing
else. -/
def Obligations.Rc4aGenCompletes : Prop :=
  ∀ s : State,
    (s.engstat.getLsbD 2 = true →
      ∃ t : State, exec .rc4aGen s = .next t ∧
        t.rc4a.i = s.rc4a.i + 1 ∧
        t.rc4a.j1 = s.rc4a.j1 + readCell s.rc4a.S1 t.rc4a.i ∧
        Exchanged s.rc4a.S1 t.rc4a.S1 t.rc4a.i t.rc4a.j1 ∧
        t.rc4a.j2 = s.rc4a.j2 + readCell s.rc4a.S2 t.rc4a.i ∧
        Exchanged s.rc4a.S2 t.rc4a.S2 t.rc4a.i t.rc4a.j2 ∧
        t = { s with rc4a := t.rc4a, rsp := s.rsp ++ [0x00, 0x00, 0x02,
                readCell s.rc4a.S2
                  (readCell t.rc4a.S1 t.rc4a.i + readCell t.rc4a.S1 t.rc4a.j1),
                readCell t.rc4a.S1
                  (readCell t.rc4a.S2 t.rc4a.i + readCell t.rc4a.S2 t.rc4a.j2)] }) ∧
    (s.engstat.getLsbD 2 = false →
      exec .rc4aGen s = .next { s with rsp := s.rsp ++ [0x04, 0x00, 0x00] })

/-- R140, R142: with one key, RC4A's first table and accumulator are RC4's after the INIT and after
every equal number of GENs. -/
def Obligations.Rc4aFirstTableIsRc4s : Prop :=
  ∀ (key : List Byte) (m : Nat) (s : State), 1 ≤ key.length → key.length ≤ 256 →
    ∃ t u : State, execMany (.rc4Init key :: List.replicate m .rc4Gen) s = some t ∧
      execMany (.rc4aInit key :: List.replicate m .rc4aGen) s = some u ∧
      u.rc4a.i = t.rc4.i ∧ u.rc4a.j1 = t.rc4.j ∧ u.rc4a.S1 = t.rc4.S

/-- R104, R127, R142, R163: `m` GENs move `i` by `m` (RC4, RC4P, RC4A) or not at all (VMPC) and give `m`
responses of one unit each. -/
def Obligations.GensCountInIndex : Prop :=
  ∀ (m : Nat) (s : State),
    (s.engstat.getLsbD 0 = true → ∃ t, execMany (List.replicate m .rc4Gen) s = some t ∧
      t.rc4.i = s.rc4.i + BitVec.ofNat 8 m ∧ t.rsp.length = s.rsp.length + 4 * m) ∧
    (s.engstat.getLsbD 1 = true → ∃ t, execMany (List.replicate m .rc4pGen) s = some t ∧
      t.rc4p.i = s.rc4p.i + BitVec.ofNat 8 m ∧ t.rsp.length = s.rsp.length + 4 * m) ∧
    (s.engstat.getLsbD 2 = true → ∃ t, execMany (List.replicate m .rc4aGen) s = some t ∧
      t.rc4a.i = s.rc4a.i + BitVec.ofNat 8 m ∧ t.rsp.length = s.rsp.length + 5 * m) ∧
    (s.engstat.getLsbD 3 = true → ∃ t, execMany (List.replicate m .vmpcGen) s = some t ∧
      t.vmpc.i = s.vmpc.i ∧ t.rsp.length = s.rsp.length + 4 * m)

/-! ## VMPC -/

/-- R160, R161: VMPC.INIT with a key of 1..256 bytes and an IV as long completes: identity, accumulator
0, three full passes over the key and three over the IV with the accumulator carried, `i = 0`, `j` the
accumulator the sixth pass left, `V[3] = 1`, an OK response. The step, the in-pass operand index and
the carried `j` are the spec's decided defaults (D17, D18; log entry 3). -/
def Obligations.VmpcInitCompletes : Prop :=
  ∀ (key iv : List Byte) (s : State), 1 ≤ key.length → key.length ≤ 256 → iv.length = key.length →
    ∃ t : State, exec (.vmpcInit key iv) s = .next t ∧
      (∃ (T : Nat → Table) (j : Nat → Byte),
        IsIdentity (T 0) ∧ j 0 = 0 ∧
        (∀ p, p < 6 →
          SwapPass 256 (fun n => BitVec.ofNat 8 n)
            (fun n S a => readCell S (a + readCell S (BitVec.ofNat 8 n) +
              operandAt (if p < 3 then key else iv) n))
            (T p) (j p) (T (p + 1)) (j (p + 1))) ∧
        t.vmpc.S = T 6 ∧ t.vmpc.j = j 6) ∧
      t.vmpc.i = 0 ∧
      t = { s with vmpc := t.vmpc, engstat := s.engstat ||| 0b01000#5,
                   rsp := s.rsp ++ [0x00, 0x00, 0x00] }

/-- R162, R163: VMPC.GEN on a valid engine completes: the accumulator is the cell at the old `j` plus the
cell at `i`; the output is the triple lookup before the swap; `i` is not written. On an engine that is
not valid it is answered `ERR_NOT_INIT` and changes nothing else. -/
def Obligations.VmpcGenCompletes : Prop :=
  ∀ s : State,
    (s.engstat.getLsbD 3 = true →
      ∃ t : State, exec .vmpcGen s = .next t ∧
        t.vmpc.i = s.vmpc.i ∧
        t.vmpc.j = readCell s.vmpc.S s.vmpc.j + readCell s.vmpc.S s.vmpc.i ∧
        Exchanged s.vmpc.S t.vmpc.S s.vmpc.i t.vmpc.j ∧
        t = { s with vmpc := t.vmpc, rsp := s.rsp ++ [0x00, 0x00, 0x01,
                readCell s.vmpc.S (readCell s.vmpc.S (readCell s.vmpc.S t.vmpc.j + 1))] }) ∧
    (s.engstat.getLsbD 3 = false →
      exec .vmpcGen s = .next { s with rsp := s.rsp ++ [0x04, 0x00, 0x00] })

/-- R8, R161, R189: whatever values the parameters take, the VMPC schedule gives a permutation and
`absorb_stop` keeps one: the invariant does not depend on the decided defaults. -/
def Obligations.PermutationsForEveryParameter : Prop :=
  ∀ (cfg : Config) (key iv : List Byte) (r : SpzEngine),
    IsPermutation (vmpcSchedule cfg key iv).S ∧
    (IsPermutation r.S → IsPermutation (spzAbsorbStop cfg r).S)

/-- D17, R161: the two settings of `VMPC_KEY_INDEX` give the same three passes when the length divides
256. -/
def Obligations.VmpcKeyIndexModesAgree : Prop :=
  ∀ (cfg : Config) (src : List Byte) (p : Table × Byte), src.length ∣ 256 →
    vmpcFold { cfg with vmpcKeyIndex := .running } src p =
      vmpcFold { cfg with vmpcKeyIndex := .inPass } src p

/-! ## Spritz -/

/-- R182, R184: a `whip` is 512 updates with the old `w`, then `w` by 2; `i` ends where it began and
`a`, `z` are untouched. -/
def Obligations.SpzWhipUpdates : Prop :=
  ∀ r : SpzEngine, Whipped r (spzWhip r) ∧
    (spzWhip r).i = r.i ∧ (spzWhip r).a = r.a ∧ (spzWhip r).w = r.w + 2 ∧ (spzWhip r).z = r.z

/-- R185: `crush` compares the 128 pairs `(v, 255 - v)` and exchanges exactly those in which the value at
the lower address is strictly greater; it writes `S` only. -/
def Obligations.SpzCrushOrdersPairs : Prop := ∀ r : SpzEngine, Crushed r (spzCrush r)

/-- R186: a `shuffle` is whip, crush, whip, crush, whip in this order, then `a = 0`; it leaves `i` and
`z` and raises `w` by 6. -/
def Obligations.SpzShuffleFiveSteps : Prop :=
  ∀ r : SpzEngine,
    (∃ r1 r2 r3 r4 r5 : SpzEngine,
      Whipped r r1 ∧ Crushed r1 r2 ∧ Whipped r2 r3 ∧ Crushed r3 r4 ∧ Whipped r4 r5 ∧
      spzShuffle r = { r5 with a := 0 }) ∧
    (spzShuffle r).i = r.i ∧ (spzShuffle r).w = r.w + 6 ∧ (spzShuffle r).z = r.z

/-- R181, R187, R188, R192: SPZ.INIT with a key of 1..256 bytes completes: the identity table and zero
scalars, then the key's bytes absorbed in order; `V[4] = 1`, an OK response. -/
def Obligations.SpzInitCompletes : Prop :=
  ∀ (key : List Byte) (s : State), 1 ≤ key.length → key.length ≤ 256 →
    ∃ t : State, exec (.spzInit key) s = .next t ∧
      (∃ T : Table, IsIdentity T ∧ AbsorbedAll key ⟨0, 0, 0, 0, 0, 0, T⟩ t.spz) ∧
      t = { s with spz := t.spz, engstat := s.engstat ||| 0b10000#5,
                   rsp := s.rsp ++ [0x00, 0x00, 0x00] }

/-- R33, R192: the scalars after a successful SPZ.INIT: `a = ((2*klen - 1) mod 128) + 1`, `w` by 6 for each
of the `floor((2*klen - 1)/128)` shuffles, `i = z = 0`, and `j = k = 0` for a key of at most 64
bytes. -/
def Obligations.SpzInitScalars : Prop :=
  ∀ (key : List Byte) (s : State), 1 ≤ key.length → key.length ≤ 256 →
    ∃ t : State, exec (.spzInit key) s = .next t ∧
      t.spz.a.toNat = (2 * key.length - 1) % 128 + 1 ∧
      t.spz.w.toNat = 6 * ((2 * key.length - 1) / 128) ∧
      t.spz.i = 0 ∧ t.spz.z = 0 ∧
      (key.length ≤ 64 → t.spz.j = 0 ∧ t.spz.k = 0)

/-- R187, R188, R193: SPZ.ABSORB on a valid engine completes for every length: the data's bytes absorbed
in order, an OK response. -/
def Obligations.SpzAbsorbCompletes : Prop :=
  ∀ (data : List Byte) (s : State), s.engstat.getLsbD 4 = true →
    ∃ t : State, exec (.spzAbsorb data) s = .next t ∧
      AbsorbedAll data s.spz t.spz ∧
      t = { s with spz := t.spz, rsp := s.rsp ++ [0x00, 0x00, 0x00] }

/-- R189, R194: SPZ.ABSORB_STOP on a valid engine completes: a shuffle when `a >= 128` (the spec's decided
default `SPZ_STOP_COND`, D20; log entry 3), then `a` by 1 with no swap; an OK response. -/
def Obligations.SpzAbsorbStopCompletes : Prop :=
  ∀ s : State, s.engstat.getLsbD 4 = true →
    ∃ t : State, exec .spzAbsorbStop s = .next t ∧
      (128 ≤ s.spz.a.toNat → t.spz = { spzShuffle s.spz with a := 1 }) ∧
      (s.spz.a.toNat < 128 → t.spz = { s.spz with a := s.spz.a + 1 }) ∧
      t = { s with spz := t.spz, rsp := s.rsp ++ [0x00, 0x00, 0x00] }

/-- R182, R183, R190, R191, R195: SPZ.SQUEEZE on a valid engine completes for every count: one shuffle when
`a > 0`, then `count` drips with no further shuffle; the response carries the bytes in drip order
under their count; `a = 0` afterwards. -/
def Obligations.SpzSqueezeCompletes : Prop :=
  ∀ (count : BitVec 16) (s : State), s.engstat.getLsbD 4 = true →
    ∃ t : State, exec (.spzSqueeze count) s = .next t ∧
      ∃ E : Nat → SpzEngine,
        E 0 = (if 0 < s.spz.a.toNat then spzShuffle s.spz else s.spz) ∧
        (∀ n, n < count.toNat → Dripped (E n) (E (n + 1))) ∧
        t.spz = E count.toNat ∧ t.spz.a = 0 ∧
        t = { s with spz := t.spz, rsp := s.rsp ++
                [0x00, count.extractLsb' 8 8, count.extractLsb' 0 8] ++
                (List.range count.toNat).map (fun n => (E (n + 1)).z) }

/-- R196 (c): squeezing in two commands gives the same bytes and the same engine as in one. -/
def Obligations.SqueezeChunking : Prop :=
  ∀ (s : State) (c1 c2 c : BitVec 16), c1.toNat + c2.toNat = c.toNat → s.engstat.getLsbD 4 = true →
    ∃ (t1 t2 t : State) (d1 d2 : List Byte),
      exec (.spzSqueeze c1) s = .next t1 ∧ exec (.spzSqueeze c2) t1 = .next t2 ∧
      exec (.spzSqueeze c) s = .next t ∧
      t1.rsp = s.rsp ++ [0x00, c1.extractLsb' 8 8, c1.extractLsb' 0 8] ++ d1 ∧
      t2.rsp = t1.rsp ++ [0x00, c2.extractLsb' 8 8, c2.extractLsb' 0 8] ++ d2 ∧
      t.rsp = s.rsp ++ [0x00, c.extractLsb' 8 8, c.extractLsb' 0 8] ++ (d1 ++ d2) ∧
      d1.length = c1.toNat ∧ d2.length = c2.toNat ∧ t2.spz = t.spz

/-- R193: absorbing in two commands leaves the engine that one command leaves, and INIT with a key then
ABSORB of `d` leaves the engine that INIT with `key ++ d` leaves, where that is within the limit. -/
def Obligations.AbsorbConcatenates : Prop :=
  ∀ (key d1 d2 : List Byte) (s : State),
    (s.engstat.getLsbD 4 = true →
      ∃ t u : State, execMany [.spzAbsorb d1, .spzAbsorb d2] s = some t ∧
        exec (.spzAbsorb (d1 ++ d2)) s = .next u ∧ t.spz = u.spz) ∧
    (1 ≤ key.length → (key ++ d1).length ≤ 256 →
      ∃ t u : State, execMany [.spzInit key, .spzAbsorb d1] s = some t ∧
        exec (.spzInit (key ++ d1)) s = .next u ∧ t.spz = u.spz ∧ t.engstat = u.engstat)

/-- R196 (f): for `a` in 1..127, ABSORB_STOP followed by SQUEEZE returns the bytes of the SQUEEZE alone
and leaves the same engine. It rests on the spec's decided default `SPZ_STOP_COND` (D20; log entry 3). -/
def Obligations.StopThenSqueezeIsSqueeze : Prop :=
  ∀ (s : State) (count : BitVec 16), s.engstat.getLsbD 4 = true →
    1 ≤ s.spz.a.toNat → s.spz.a.toNat ≤ 127 →
    ∃ (t u : State) (r : List Byte),
      execMany [.spzAbsorbStop, .spzSqueeze count] s = some t ∧
      exec (.spzSqueeze count) s = .next u ∧
      t.spz = u.spz ∧ u.rsp = s.rsp ++ r ∧ t.rsp = s.rsp ++ [0x00, 0x00, 0x00] ++ r

/-! ## Frames and isolation -/

/-- R32, R34: a command leaves CMD, appends to RSP, and leaves the records and valid bits of all engines
but the one it is addressed to. -/
def Obligations.CommandLeavesOtherEngines : Prop :=
  ∀ (i : Instr) (s t : State), exec i s = .next t →
    t.cmd = s.cmd ∧ (∃ r : List Byte, t.rsp = s.rsp ++ r) ∧
    ∀ e : Eng, e ≠ i.eng → SameRecord e s t ∧ valid e t = valid e s

/-- R32: two commands addressed to different engines commute: the same final state, and the same two
responses in the order of their commands. -/
def Obligations.CommandsToDifferentEnginesCommute : Prop :=
  ∀ (i i' : Instr) (s : State), i.eng ≠ i'.eng →
    ∃ (a a' b b' : State) (r r' : List Byte),
      exec i s = .next a ∧ exec i' a = .next a' ∧
      exec i' s = .next b ∧ exec i b = .next b' ∧
      a.rsp = s.rsp ++ r ∧ a'.rsp = s.rsp ++ r ++ r' ∧
      b.rsp = s.rsp ++ r' ∧ b'.rsp = s.rsp ++ r' ++ r ∧
      { a' with rsp := [] } = { b' with rsp := [] }

/-! ## Invariants -/

/-- R27: every step, from every state, keeps every table of every valid engine a permutation. -/
def Obligations.StepKeepsPermutations : Prop :=
  ∀ s t : State, PermInvariant s → step s = .next t → PermInvariant t

/-- R35: every step keeps the absorb counter of a valid Spritz engine within 0..128. It rests on the spec's
decided default `SPZ_STOP_COND` (D20; log entry 3). -/
def Obligations.StepKeepsSpzCounter : Prop :=
  ∀ s t : State, SpzCounterInvariant s → step s = .next t → SpzCounterInvariant t

/-- R196 (e): every step keeps `w` and `i` of a valid Spritz engine even. -/
def Obligations.StepKeepsSpzEven : Prop :=
  ∀ s t : State, SpzEvenInvariant s → step s = .next t → SpzEvenInvariant t

/-- R163: every step keeps `VMPC.i` of a valid engine 0. -/
def Obligations.StepKeepsVmpcIndexZero : Prop :=
  ∀ s t : State, VmpcIndexInvariant s → step s = .next t → VmpcIndexInvariant t

/-- R250: the reset state meets the four invariants. -/
def Obligations.ResetMeetsInvariants : Prop :=
  PermInvariant State.reset ∧ SpzCounterInvariant State.reset ∧ SpzEvenInvariant State.reset ∧
    VmpcIndexInvariant State.reset
end

