-- ==== Sys2Proof/Laws/Decode.lean ====
section
/-! SUPPORT. The decoder on headers: a header's bytes give the header back, a row's mask covers ENG and OP,
and the header of a well-formed command selects its row. -/

namespace Sys2Proof

theorem headerWord_of_bytes (h : Word32) :
    headerWord (h.extractLsb' 24 8) (h.extractLsb' 16 8) (h.extractLsb' 8 8) (h.extractLsb' 0 8) = h := by
  refine BitVec.eq_of_getLsbD_eq fun n hn => ?_
  simp only [headerWord, BitVec.getLsbD_append, BitVec.getLsbD_extractLsb']
  split_ifs <;> rw [decide_eq_true (by omega), Bool.true_and] <;> congr 1 <;> omega

theorem decode_headerBytes (h : Word32) (rest : List Byte) :
    decode (headerBytes h ++ rest) = decodePacket h rest := by
  show decodePacket (headerWord _ _ _ _) rest = _
  rw [headerWord_of_bytes]

theorem headerBytes_headerWord (b3 b2 b1 b0 : Byte) :
    headerBytes (headerWord b3 b2 b1 b0) = [b3, b2, b1, b0] := by
  have h : ∀ n (k : Nat), n < 8 → (headerWord b3 b2 b1 b0).getLsbD (k + n) =
      (if k + n < 8 then b0.getLsbD (k + n) else if k + n < 16 then b1.getLsbD (k + n - 8)
       else if k + n < 24 then b2.getLsbD (k + n - 16) else b3.getLsbD (k + n - 24)) := by
    intro n k hn
    simp only [headerWord, BitVec.getLsbD_append]
    split_ifs <;> first | omega | rfl
  simp only [headerBytes, List.cons.injEq, and_true]
  refine ⟨?_, ?_, ?_, ?_⟩ <;> refine BitVec.eq_of_getLsbD_eq fun n hn => ?_ <;>
    simp only [BitVec.getLsbD_extractLsb', hn, decide_true, Bool.true_and, h n _ hn] <;>
    split_ifs <;> first | omega | rfl | (congr 1; omega)

/-- R75: every mask covers ENG and OP, so a selected header carries its row's. -/
theorem selects_top {r : OpRow} (hr : r ∈ opcodeTable) {h : Word32} (hs : r.selects h = true) :
    h >>> 24 = r.matchBits >>> 24 := by
  have hm : h &&& r.mask = r.matchBits := by simpa [OpRow.selects] using hs
  have hall : ∀ a ∈ opcodeTable, a.mask >>> 24 = 0xFF#32 := by decide
  have ht : r.mask >>> 24 = 0xFF#32 := hall r hr
  rw [← hm, BitVec.ushiftRight_and_distrib, ht]
  refine BitVec.eq_of_getLsbD_eq fun n hn => ?_
  simp only [BitVec.getLsbD_and, BitVec.getLsbD_ushiftRight]
  by_cases h8 : n < 8
  · have : (0xFF#32).getLsbD n = true := by revert n; decide
    rw [this, Bool.and_true]
  · rw [BitVec.getLsbD_of_ge h (24 + n) (by omega), Bool.false_and]

/-- R75: the row a header selects is the one the lookup finds. -/
theorem lookupRow_eq_some {r : OpRow} (hr : r ∈ opcodeTable) {h : Word32} (hs : r.selects h = true) :
    lookupRow h = some r := by
  unfold lookupRow
  cases hf : opcodeTable.find? fun r => r.selects h with
  | none => exact absurd hs (by simpa using List.find?_eq_none.mp hf r hr)
  | some r' =>
    have hr' := List.mem_of_find?_eq_some hf
    have hs' : r'.selects h = true := by simpa using List.find?_some hf
    have heq := (selects_top hr hs).symm.trans (selects_top hr' hs')
    have hinj : ∀ a ∈ opcodeTable, ∀ b ∈ opcodeTable,
        a.matchBits >>> 24 = b.matchBits >>> 24 → a = b := by decide
    rw [hinj r hr r' hr' heq]

theorem lookupRow_some {r : OpRow} {h : Word32} (hf : lookupRow h = some r) :
    r ∈ opcodeTable ∧ r.selects h = true :=
  ⟨List.mem_of_find?_eq_some hf, by simpa using List.find?_some hf⟩

/-! ## The length fields -/

theorem ofNat_eq_setWidth {n : Nat} (hn : n < 1024) :
    BitVec.ofNat 32 n = (BitVec.ofNat 10 n).setWidth 32 := by
  apply BitVec.eq_of_toNat_eq
  simp
  omega

theorem len_and_maskK : ∀ k : BitVec 10, k.setWidth 32 &&& 0xFFFFFC00#32 = 0#32 := by decide +kernel
theorem len_and_maskKV : ∀ k : BitVec 10, k.setWidth 32 &&& 0xFFF00000#32 = 0#32 := by decide +kernel
theorem ivlen_and_maskKV : ∀ k : BitVec 10, k.setWidth 32 <<< 10 &&& 0xFFF00000#32 = 0#32 := by
  decide +kernel
theorem len_extract_low : ∀ k : BitVec 10, (k.setWidth 32).extractLsb' 0 10 = k := by decide +kernel
theorem len_extract_high : ∀ k : BitVec 10, (k.setWidth 32).extractLsb' 10 10 = 0#10 := by decide +kernel
theorem ivlen_extract_low : ∀ k : BitVec 10, (k.setWidth 32 <<< 10).extractLsb' 0 10 = 0#10 := by
  decide +kernel
theorem ivlen_extract_high : ∀ k : BitVec 10, (k.setWidth 32 <<< 10).extractLsb' 10 10 = k := by
  decide +kernel

theorem ofNat10_toNat {n : Nat} (hn : n < 1024) : (BitVec.ofNat 10 n).toNat = n := by
  simp
  omega

/-- R73: a header of format K or L matches its row and says its length. -/
theorem headerWithLen_spec {m : Word32} (hm : m &&& 0xFFFFFC00#32 = m) (h0 : m.extractLsb' 0 10 = 0#10)
    {bs : List Byte} (hl : bs.length < 1024) :
    headerWithLen m bs &&& 0xFFFFFC00#32 = m ∧ lenField (headerWithLen m bs) = bs.length := by
  unfold headerWithLen lenField
  rw [ofNat_eq_setWidth hl, BitVec.and_or_distrib_right, hm, len_and_maskK, BitVec.or_zero]
  refine ⟨rfl, ?_⟩
  rw [BitVec.extractLsb'_or, h0, len_extract_low, BitVec.zero_or, ofNat10_toNat hl]

/-- R73: a header of format KV matches its row and says both lengths. -/
theorem headerWithLens_spec {m : Word32} (hm : m &&& 0xFFF00000#32 = m) (h0 : m.extractLsb' 0 10 = 0#10)
    (h1 : m.extractLsb' 10 10 = 0#10) {key iv : List Byte} (hk : key.length < 1024) (hv : iv.length < 1024) :
    headerWithLens m key iv &&& 0xFFF00000#32 = m ∧ lenField (headerWithLens m key iv) = key.length ∧
      ivlenField (headerWithLens m key iv) = iv.length := by
  unfold headerWithLens lenField ivlenField
  rw [ofNat_eq_setWidth hk, ofNat_eq_setWidth hv]
  refine ⟨?_, ?_, ?_⟩
  · rw [BitVec.and_or_distrib_right, BitVec.and_or_distrib_right, hm, ivlen_and_maskKV,
      len_and_maskKV, BitVec.or_zero, BitVec.or_zero]
  · rw [BitVec.extractLsb'_or, BitVec.extractLsb'_or, h0, ivlen_extract_low, len_extract_low,
      BitVec.zero_or, BitVec.zero_or, ofNat10_toNat hk]
  · rw [BitVec.extractLsb'_or, BitVec.extractLsb'_or, h1, ivlen_extract_high, len_extract_high,
      BitVec.zero_or, BitVec.or_zero, ofNat10_toNat hv]

/-! ## Packets -/

/-- A packet whose header selects a row and whose payload has the row's length decodes to the row's
command. -/
theorem decodePacket_of_selects {r : OpRow} (hr : r ∈ opcodeTable) {h : Word32}
    (hs : r.selects h = true) {payload rest : List Byte}
    (hl : payload.length = payloadLength r.format h) :
    decodePacket h (payload ++ rest) = .instr (buildInstr r.opcode h payload) rest := by
  unfold decodePacket
  rw [lookupRow_eq_some hr hs]
  dsimp only
  rw [if_neg (by simp [hl]), ← hl, List.take_left, List.drop_left]

/-- What it is for the decoder to answer a command. -/
theorem decode_eq_instr {bs : List Byte} {i : Instr} {rest : List Byte}
    (hd : decode bs = .instr i rest) :
    ∃ (h : Word32) (r : OpRow) (payload : List Byte), lookupRow h = some r ∧
      bs = headerBytes h ++ (payload ++ rest) ∧ payload.length = payloadLength r.format h ∧
      i = buildInstr r.opcode h payload := by
  match bs, hd with
  | b3 :: b2 :: b1 :: b0 :: tail, hd =>
    have hd' : decodePacket (headerWord b3 b2 b1 b0) tail = .instr i rest := hd
    unfold decodePacket at hd'
    cases hl : lookupRow (headerWord b3 b2 b1 b0) with
    | none => simp [hl] at hd'
    | some r =>
      simp only [hl] at hd'
      split at hd'
      · simp at hd'
      · simp only [Decoded.instr.injEq] at hd'
        refine ⟨headerWord b3 b2 b1 b0, r, tail.take (payloadLength r.format (headerWord b3 b2 b1 b0)),
          hl, ?_, ?_, hd'.1.symm⟩
        · rw [headerBytes_headerWord, ← hd'.2, List.take_append_drop]; rfl
        · rw [List.length_take]; omega

/-- What it is for the decoder to answer an illegal header. -/
theorem decode_eq_illegal {bs : List Byte} {h : Word32} {rest : List Byte}
    (hd : decode bs = .illegal h rest) : lookupRow h = none ∧ bs = headerBytes h ++ rest := by
  match bs, hd with
  | b3 :: b2 :: b1 :: b0 :: tail, hd =>
    have hd' : decodePacket (headerWord b3 b2 b1 b0) tail = .illegal h rest := hd
    unfold decodePacket at hd'
    cases hl : lookupRow (headerWord b3 b2 b1 b0) with
    | none =>
      simp only [hl, Decoded.illegal.injEq] at hd'
      rw [← hd'.1, ← hd'.2, headerBytes_headerWord]
      exact ⟨hl, rfl⟩
    | some r =>
      simp only [hl] at hd'
      split at hd' <;> simp at hd'

end Sys2Proof
end

