-- ==== Sys2Proof/Laws/Table.lean ====
section
/-! SUPPORT. What the table operations do, cell by cell, and that a swap keeps a permutation. -/

namespace Sys2Proof.Machine

theorem readCell_writeCell (T : Table) (x v y : Byte) :
    readCell (writeCell T x v) y = if y = x then v else readCell T y := by
  unfold readCell writeCell
  rw [Vector.getElem_set]
  simp only [BitVec.toNat_inj, eq_comm]

theorem readCell_swapCells (T : Table) (p q x : Byte) :
    readCell (swapCells T p q) x =
      if x = p then readCell T q else if x = q then readCell T p else readCell T x := by
  unfold swapCells
  simp only [readCell_writeCell]
  split_ifs <;> simp_all

@[simp] theorem readCell_tableOf (f : Byte → Byte) (x : Byte) : readCell (tableOf f) x = f x := by
  unfold tableOf; simp [readCell]

@[simp] theorem readCell_identityTable (x : Byte) : readCell identityTable x = x := by
  simp [identityTable]

theorem table_ext {T U : Table} (h : ∀ x, readCell T x = readCell U x) : T = U := by
  refine Vector.ext fun n hn => ?_
  simpa [readCell, Nat.mod_eq_of_lt hn] using h (BitVec.ofNat 8 n)

theorem swapCells_exchanged (T : Table) (p q : Byte) : Exchanged T (swapCells T p q) p q :=
  readCell_swapCells T p q

theorem eq_swapCells_of_exchanged {T U : Table} {p q : Byte} (h : Exchanged T U p q) :
    U = swapCells T p q :=
  table_ext fun x => by rw [h x, readCell_swapCells]

@[simp] theorem swapCells_self (T : Table) (p : Byte) : swapCells T p p = T :=
  table_ext fun x => by rw [readCell_swapCells]; split_ifs <;> simp_all

/-- A swap reads the table through the exchange of two addresses. -/
theorem readCell_swapCells_equiv (T : Table) (p q x : Byte) :
    readCell (swapCells T p q) x = readCell T (Equiv.swap p q x) := by
  rw [readCell_swapCells, Equiv.swap_apply_def]
  split_ifs <;> rfl

theorem isPermutation_iff_bijective (T : Table) :
    IsPermutation T ↔ Function.Bijective (readCell T) := Iff.rfl

theorem isPermutation_identityTable : IsPermutation identityTable :=
  ⟨fun x y h => by simpa using h, fun v => ⟨v, by simp⟩⟩

theorem isPermutation_swapCells {T : Table} (h : IsPermutation T) (p q : Byte) :
    IsPermutation (swapCells T p q) := by
  rw [isPermutation_iff_bijective] at h ⊢
  have : readCell (swapCells T p q) = readCell T ∘ Equiv.swap p q :=
    funext fun x => readCell_swapCells_equiv T p q x
  rw [this]
  exact h.comp (Equiv.swap p q).bijective

theorem isPermutation_reverseTable {T : Table} (h : IsPermutation T) :
    IsPermutation (reverseTable T) := by
  refine ⟨fun x y hxy => ?_, fun v => ?_⟩
  · have := h.1 _ _ (by simpa [reverseTable] using hxy : readCell T (255 - x) = readCell T (255 - y))
    bv_omega
  · obtain ⟨x, hx⟩ := h.2 v
    refine ⟨255 - x, ?_⟩
    have hx' : (255 : Byte) - (255 - x) = x := by bv_omega
    simp only [reverseTable, readCell_tableOf, hx', hx]

/-- An invariant of the step of a fold is an invariant of the fold. -/
theorem foldl_keeps {α β : Type} (P : α → Prop) (f : α → β → α)
    (hf : ∀ a b, P a → P (f a b)) (l : List β) (a : α) (h : P a) : P (l.foldl f a) := by
  induction l generalizing a with
  | nil => exact h
  | cons b l ih => exact ih (f a b) (hf a b h)

/-- An invariant of a function is an invariant of its iterates. -/
theorem iterate_keeps {α : Type} (P : α → Prop) (f : α → α) (hf : ∀ a, P a → P (f a))
    (n : Nat) (a : α) (h : P a) : P (f^[n] a) := by
  induction n generalizing a with
  | zero => exact h
  | succ n ih => exact ih (f a) (hf a h)

end Sys2Proof.Machine
end

