-- ==== Sys2Proof/Laws/Engines.lean ====
section
/-! SUPPORT. What the engines' micro-operations keep: every schedule and every generation writes its table
by swaps alone, so a permutation stays one; the Spritz scalars move as rule R196 says. -/

namespace Sys2Proof.Machine

/-! ## Schedules keep permutations -/

theorem ksaStep_perm (key : List Byte) (p : Table × Byte) (n : Nat) (h : IsPermutation p.1) :
    IsPermutation (ksaStep key p n).1 := isPermutation_swapCells h _ _

theorem ksaPass_perm (key : List Byte) (p : Table × Byte) (h : IsPermutation p.1) :
    IsPermutation (ksaPass key p).1 := by
  unfold ksaPass
  exact foldl_keeps (fun p : Table × Byte => IsPermutation p.1) _ (ksaStep_perm key) _ p h

theorem layer2_perm (key iv : List Byte) (p : Table × Byte) (h : IsPermutation p.1) :
    IsPermutation (layer2 key iv p).1 := by
  unfold layer2
  exact foldl_keeps (fun p : Table × Byte => IsPermutation p.1) _
    (fun _ _ h => isPermutation_swapCells h _ _) _ p h

theorem layer3_perm (key : List Byte) (p : Table × Byte) (h : IsPermutation p.1) :
    IsPermutation (layer3 key p).1 := by
  unfold layer3
  exact foldl_keeps (fun p : Table × Byte => IsPermutation p.1) _ (ksaStep_perm key) _ p h

theorem rc4Schedule_perm (key : List Byte) : IsPermutation (rc4Schedule key).S :=
  ksaPass_perm key _ isPermutation_identityTable

theorem rc4pSchedule_perm (key iv : List Byte) : IsPermutation (rc4pSchedule key iv).S :=
  layer3_perm key _ (layer2_perm key iv _ (ksaPass_perm key _ isPermutation_identityTable))

theorem rc4aSchedule_perm (key : List Byte) :
    IsPermutation (rc4aSchedule key).S1 ∧ IsPermutation (rc4aSchedule key).S2 :=
  have h := ksaPass_perm key (identityTable, 0) isPermutation_identityTable
  ⟨h, isPermutation_reverseTable h⟩

theorem vmpcPass_perm (cfg : Config) (src : List Byte) (p : Table × Byte) (pass : Nat)
    (h : IsPermutation p.1) : IsPermutation (vmpcPass cfg src p pass).1 := by
  unfold vmpcPass
  exact foldl_keeps (fun p : Table × Byte => IsPermutation p.1) _
    (fun _ _ h => isPermutation_swapCells h _ _) _ p h

theorem vmpcFold_perm (cfg : Config) (src : List Byte) (p : Table × Byte) (h : IsPermutation p.1) :
    IsPermutation (vmpcFold cfg src p).1 :=
  foldl_keeps (fun p : Table × Byte => IsPermutation p.1) _ (vmpcPass_perm cfg src) _ p h

/-! ## Generation keeps permutations -/

theorem advance_perm (r : PermEngine) (h : IsPermutation r.S) : IsPermutation (advance r).S :=
  isPermutation_swapCells h _ _

theorem rc4aGenerate_perm (r : Rc4aEngine) (h : IsPermutation r.S1 ∧ IsPermutation r.S2) :
    IsPermutation (rc4aGenerate r).1.S1 ∧ IsPermutation (rc4aGenerate r).1.S2 :=
  ⟨isPermutation_swapCells h.1 _ _, isPermutation_swapCells h.2 _ _⟩

theorem vmpcGenerate_perm (r : PermEngine) (h : IsPermutation r.S) :
    IsPermutation (vmpcGenerate r).1.S := isPermutation_swapCells h _ _

@[simp] theorem vmpcGenerate_i (r : PermEngine) : (vmpcGenerate r).1.i = r.i := rfl

/-! ## Spritz: the registers after each register update

These are proved by cases on the record, so that a proof that rewrites with them never asks the kernel
to compare two engines by unfolding the loops in them. -/

@[simp] theorem spzSetA_i (b : Byte) (r : SpzEngine) : (spzSetA b r).i = r.i := by cases r; rfl
@[simp] theorem spzSetA_j (b : Byte) (r : SpzEngine) : (spzSetA b r).j = r.j := by cases r; rfl
@[simp] theorem spzSetA_k (b : Byte) (r : SpzEngine) : (spzSetA b r).k = r.k := by cases r; rfl
@[simp] theorem spzSetA_a (b : Byte) (r : SpzEngine) : (spzSetA b r).a = b := by cases r; rfl
@[simp] theorem spzSetA_w (b : Byte) (r : SpzEngine) : (spzSetA b r).w = r.w := by cases r; rfl
@[simp] theorem spzSetA_z (b : Byte) (r : SpzEngine) : (spzSetA b r).z = r.z := by cases r; rfl
@[simp] theorem spzSetA_S (b : Byte) (r : SpzEngine) : (spzSetA b r).S = r.S := by cases r; rfl

@[simp] theorem spzBumpW_i (r : SpzEngine) : (spzBumpW r).i = r.i := by cases r; rfl
@[simp] theorem spzBumpW_j (r : SpzEngine) : (spzBumpW r).j = r.j := by cases r; rfl
@[simp] theorem spzBumpW_k (r : SpzEngine) : (spzBumpW r).k = r.k := by cases r; rfl
@[simp] theorem spzBumpW_a (r : SpzEngine) : (spzBumpW r).a = r.a := by cases r; rfl
@[simp] theorem spzBumpW_w (r : SpzEngine) : (spzBumpW r).w = r.w + 2 := by cases r; rfl
@[simp] theorem spzBumpW_z (r : SpzEngine) : (spzBumpW r).z = r.z := by cases r; rfl
@[simp] theorem spzBumpW_S (r : SpzEngine) : (spzBumpW r).S = r.S := by cases r; rfl

@[simp] theorem spzBumpA_i (r : SpzEngine) : (spzBumpA r).i = r.i := by cases r; rfl
@[simp] theorem spzBumpA_j (r : SpzEngine) : (spzBumpA r).j = r.j := by cases r; rfl
@[simp] theorem spzBumpA_k (r : SpzEngine) : (spzBumpA r).k = r.k := by cases r; rfl
@[simp] theorem spzBumpA_a (r : SpzEngine) : (spzBumpA r).a = r.a + 1 := by cases r; rfl
@[simp] theorem spzBumpA_w (r : SpzEngine) : (spzBumpA r).w = r.w := by cases r; rfl
@[simp] theorem spzBumpA_z (r : SpzEngine) : (spzBumpA r).z = r.z := by cases r; rfl
@[simp] theorem spzBumpA_S (r : SpzEngine) : (spzBumpA r).S = r.S := by cases r; rfl

@[simp] theorem spzMapTable_i (f : Table → Table) (r : SpzEngine) : (spzMapTable f r).i = r.i := by cases r; rfl
@[simp] theorem spzMapTable_j (f : Table → Table) (r : SpzEngine) : (spzMapTable f r).j = r.j := by cases r; rfl
@[simp] theorem spzMapTable_k (f : Table → Table) (r : SpzEngine) : (spzMapTable f r).k = r.k := by cases r; rfl
@[simp] theorem spzMapTable_a (f : Table → Table) (r : SpzEngine) : (spzMapTable f r).a = r.a := by cases r; rfl
@[simp] theorem spzMapTable_w (f : Table → Table) (r : SpzEngine) : (spzMapTable f r).w = r.w := by cases r; rfl
@[simp] theorem spzMapTable_z (f : Table → Table) (r : SpzEngine) : (spzMapTable f r).z = r.z := by cases r; rfl
@[simp] theorem spzMapTable_S (f : Table → Table) (r : SpzEngine) : (spzMapTable f r).S = f r.S := by cases r; rfl

@[simp] theorem spzUpdate_i (r : SpzEngine) : (spzUpdate r).i = r.i + r.w := by cases r; rfl
theorem spzUpdate_j (r : SpzEngine) : (spzUpdate r).j = r.k + readCell r.S (r.j + readCell r.S (r.i + r.w)) := by cases r; rfl
theorem spzUpdate_k (r : SpzEngine) : (spzUpdate r).k = r.k + r.k + readCell r.S (spzUpdate r).j := by cases r; rfl
@[simp] theorem spzUpdate_a (r : SpzEngine) : (spzUpdate r).a = r.a := by cases r; rfl
@[simp] theorem spzUpdate_w (r : SpzEngine) : (spzUpdate r).w = r.w := by cases r; rfl
@[simp] theorem spzUpdate_z (r : SpzEngine) : (spzUpdate r).z = r.z := by cases r; rfl
theorem spzUpdate_S (r : SpzEngine) : (spzUpdate r).S = swapCells r.S (r.i + r.w) (spzUpdate r).j := by cases r; rfl

@[simp] theorem spzOutput_i (r : SpzEngine) : (spzOutput r).i = r.i := by cases r; rfl
@[simp] theorem spzOutput_j (r : SpzEngine) : (spzOutput r).j = r.j := by cases r; rfl
@[simp] theorem spzOutput_k (r : SpzEngine) : (spzOutput r).k = r.k := by cases r; rfl
@[simp] theorem spzOutput_a (r : SpzEngine) : (spzOutput r).a = r.a := by cases r; rfl
@[simp] theorem spzOutput_w (r : SpzEngine) : (spzOutput r).w = r.w := by cases r; rfl
theorem spzOutput_z (r : SpzEngine) : (spzOutput r).z = readCell r.S (r.j + readCell r.S (r.i + readCell r.S (r.z + r.k))) := by cases r; rfl
@[simp] theorem spzOutput_S (r : SpzEngine) : (spzOutput r).S = r.S := by cases r; rfl

/-! ## Spritz: update and whip -/

/-- `n` updates move `i` by `n * w` and leave `a`, `w`, `z`. -/
theorem spzUpdate_iterate (n : Nat) (r : SpzEngine) :
    (spzUpdate^[n] r).i = r.i + BitVec.ofNat 8 n * r.w ∧ (spzUpdate^[n] r).a = r.a ∧
      (spzUpdate^[n] r).w = r.w ∧ (spzUpdate^[n] r).z = r.z := by
  induction n generalizing r with
  | zero => simp
  | succ n ih =>
    obtain ⟨hi, ha, hw, hz⟩ := ih (spzUpdate r)
    rw [Function.iterate_succ_apply]
    refine ⟨?_, ha.trans (by simp), hw.trans (by simp), hz.trans (by simp)⟩
    have : BitVec.ofNat 8 (n + 1) = BitVec.ofNat 8 n + 1 := by
      apply BitVec.eq_of_toNat_eq; simp [Nat.add_mod]
    rw [hi, spzUpdate_i, spzUpdate_w, this]
    ring

theorem spzWhipUpdates_eq (r : SpzEngine) : spzWhipUpdates r = spzUpdate^[512] r := by
  unfold spzWhipUpdates
  rfl

/-- `512 * w` is a multiple of 256, so the 512 updates bring `i` back (R184). -/
theorem spzWhipUpdates_scalars (r : SpzEngine) :
    (spzWhipUpdates r).i = r.i ∧ (spzWhipUpdates r).a = r.a ∧ (spzWhipUpdates r).w = r.w ∧
      (spzWhipUpdates r).z = r.z := by
  rw [spzWhipUpdates_eq]
  obtain ⟨hi, h⟩ := spzUpdate_iterate 512 r
  refine ⟨?_, h⟩
  rw [hi]
  simp

@[simp] theorem spzWhip_i (r : SpzEngine) : (spzWhip r).i = r.i := by
  rw [spzWhip, spzBumpW_i, (spzWhipUpdates_scalars r).1]

@[simp] theorem spzWhip_a (r : SpzEngine) : (spzWhip r).a = r.a := by
  rw [spzWhip, spzBumpW_a, (spzWhipUpdates_scalars r).2.1]

@[simp] theorem spzWhip_w (r : SpzEngine) : (spzWhip r).w = r.w + 2 := by
  rw [spzWhip, spzBumpW_w, (spzWhipUpdates_scalars r).2.2.1]

@[simp] theorem spzWhip_z (r : SpzEngine) : (spzWhip r).z = r.z := by
  rw [spzWhip, spzBumpW_z, (spzWhipUpdates_scalars r).2.2.2]

theorem spzUpdate_perm (r : SpzEngine) (h : IsPermutation r.S) : IsPermutation (spzUpdate r).S := by
  rw [spzUpdate_S]
  exact isPermutation_swapCells h _ _

theorem spzWhip_perm (r : SpzEngine) (h : IsPermutation r.S) : IsPermutation (spzWhip r).S := by
  rw [spzWhip, spzBumpW_S, spzWhipUpdates_eq]
  exact iterate_keeps (fun r : SpzEngine => IsPermutation r.S) spzUpdate spzUpdate_perm _ r h

/-- `update` does not look at `a`, so a changed `a` passes through it. -/
theorem spzUpdate_setA (a : Byte) (r : SpzEngine) :
    spzUpdate (spzSetA a r) = spzSetA a (spzUpdate r) := by
  cases r; rfl

theorem spzWhip_setA (a : Byte) (r : SpzEngine) : spzWhip (spzSetA a r) = spzSetA a (spzWhip r) := by
  have h : spzWhipUpdates (spzSetA a r) = spzSetA a (spzWhipUpdates r) := by
    rw [spzWhipUpdates_eq, spzWhipUpdates_eq]
    have hc : Function.Commute spzUpdate (spzSetA a) := spzUpdate_setA a
    exact (hc.iterate_left _) r
  have hb : ∀ x : SpzEngine, spzBumpW (spzSetA a x) = spzSetA a (spzBumpW x) := fun x => by cases x; rfl
  rw [spzWhip, h, hb, spzWhip]

/-! ## Spritz: crush and shuffle -/

@[simp] theorem spzCrush_i (r : SpzEngine) : (spzCrush r).i = r.i := by rw [spzCrush, spzMapTable_i]
@[simp] theorem spzCrush_j (r : SpzEngine) : (spzCrush r).j = r.j := by rw [spzCrush, spzMapTable_j]
@[simp] theorem spzCrush_k (r : SpzEngine) : (spzCrush r).k = r.k := by rw [spzCrush, spzMapTable_k]
@[simp] theorem spzCrush_a (r : SpzEngine) : (spzCrush r).a = r.a := by rw [spzCrush, spzMapTable_a]
@[simp] theorem spzCrush_w (r : SpzEngine) : (spzCrush r).w = r.w := by rw [spzCrush, spzMapTable_w]
@[simp] theorem spzCrush_z (r : SpzEngine) : (spzCrush r).z = r.z := by rw [spzCrush, spzMapTable_z]
theorem spzCrush_S (r : SpzEngine) : (spzCrush r).S = crushTable r.S := by rw [spzCrush, spzMapTable_S]

theorem crushTable_eq (T : Table) : crushTable T = (List.range 128).foldl crushStep T := by
  unfold crushTable
  rfl

theorem crushStep_perm (T : Table) (v : Nat) (h : IsPermutation T) : IsPermutation (crushStep T v) := by
  unfold crushStep
  dsimp only
  split
  · exact isPermutation_swapCells h _ _
  · exact h

theorem spzCrush_perm (r : SpzEngine) (h : IsPermutation r.S) : IsPermutation (spzCrush r).S := by
  rw [spzCrush_S, crushTable_eq]
  exact foldl_keeps IsPermutation crushStep crushStep_perm _ r.S h

theorem spzCrush_setA (a : Byte) (r : SpzEngine) :
    spzCrush (spzSetA a r) = spzSetA a (spzCrush r) := by
  have h : ∀ f : Table → Table, spzMapTable f (spzSetA a r) = spzSetA a (spzMapTable f r) :=
    fun f => by cases r; rfl
  rw [spzCrush, spzCrush, h]

@[simp] theorem spzShuffle_a (r : SpzEngine) : (spzShuffle r).a = 0 := by rw [spzShuffle, spzSetA_a]

@[simp] theorem spzShuffle_i (r : SpzEngine) : (spzShuffle r).i = r.i := by
  rw [spzShuffle, spzSetA_i, spzWhip_i, spzCrush_i, spzWhip_i, spzCrush_i, spzWhip_i]

@[simp] theorem spzShuffle_w (r : SpzEngine) : (spzShuffle r).w = r.w + 6 := by
  rw [spzShuffle, spzSetA_w, spzWhip_w, spzCrush_w, spzWhip_w, spzCrush_w, spzWhip_w,
    BitVec.add_assoc, BitVec.add_assoc]
  rfl

@[simp] theorem spzShuffle_z (r : SpzEngine) : (spzShuffle r).z = r.z := by
  rw [spzShuffle, spzSetA_z, spzWhip_z, spzCrush_z, spzWhip_z, spzCrush_z, spzWhip_z]

theorem spzShuffle_perm (r : SpzEngine) (h : IsPermutation r.S) : IsPermutation (spzShuffle r).S := by
  rw [spzShuffle, spzSetA_S]
  exact spzWhip_perm _ (spzCrush_perm _ (spzWhip_perm _ (spzCrush_perm _ (spzWhip_perm _ h))))

/-- `shuffle` clears `a` without reading it (R196 (f)). -/
theorem spzShuffle_setA (a : Byte) (r : SpzEngine) : spzShuffle (spzSetA a r) = spzShuffle r := by
  have h : ∀ x : SpzEngine, spzSetA 0 (spzSetA a x) = spzSetA 0 x := fun x => by cases x; rfl
  rw [spzShuffle, spzShuffle, spzWhip_setA, spzCrush_setA, spzWhip_setA, spzCrush_setA, spzWhip_setA, h]

/-! ## Spritz: absorb and squeeze -/

theorem spzMakeRoom_perm (r : SpzEngine) (h : IsPermutation r.S) : IsPermutation (spzMakeRoom r).S := by
  unfold spzMakeRoom
  split
  · exact spzShuffle_perm r h
  · exact h

/-- After the shuffle test of `absorb_nibble`, `a` is below 128. -/
theorem spzMakeRoom_a_lt (r : SpzEngine) : (spzMakeRoom r).a.toNat < 128 := by
  unfold spzMakeRoom
  simp only [Config.spzHalf]
  split
  · simp
  · omega

theorem spzAbsorbNibble_a (r : SpzEngine) (n : Byte) :
    (spzAbsorbNibble r n).a = (spzMakeRoom r).a + 1 := by
  rw [spzAbsorbNibble, spzPlaceNibble, spzBumpA_a, spzMapTable_a]

theorem spzAbsorbNibble_S (r : SpzEngine) (n : Byte) :
    (spzAbsorbNibble r n).S = swapCells (spzMakeRoom r).S (spzMakeRoom r).a (128 + n) := by
  rw [spzAbsorbNibble, spzPlaceNibble, spzBumpA_S, spzMapTable_S]
  rfl

theorem spzAbsorbNibble_perm (r : SpzEngine) (n : Byte) (h : IsPermutation r.S) :
    IsPermutation (spzAbsorbNibble r n).S := by
  rw [spzAbsorbNibble_S]
  exact isPermutation_swapCells (spzMakeRoom_perm r h) _ _

theorem spzAbsorbNibble_a_le (r : SpzEngine) (n : Byte) : (spzAbsorbNibble r n).a.toNat ≤ 128 := by
  have h := spzMakeRoom_a_lt r
  rw [spzAbsorbNibble_a, BitVec.toNat_add]
  have : (1 : Byte).toNat = 1 := rfl
  omega

theorem spzAbsorbByte_perm (r : SpzEngine) (b : Byte) (h : IsPermutation r.S) :
    IsPermutation (spzAbsorbByte r b).S := spzAbsorbNibble_perm _ _ (spzAbsorbNibble_perm _ _ h)

theorem spzAbsorbAll_perm (r : SpzEngine) (bs : List Byte) (h : IsPermutation r.S) :
    IsPermutation (spzAbsorbAll r bs).S :=
  foldl_keeps (fun r : SpzEngine => IsPermutation r.S) _ spzAbsorbByte_perm bs r h

theorem spzAbsorbAll_a_le (r : SpzEngine) (bs : List Byte) (h : r.a.toNat ≤ 128) :
    (spzAbsorbAll r bs).a.toNat ≤ 128 :=
  foldl_keeps (fun r : SpzEngine => r.a.toNat ≤ 128) _
    (fun _ _ _ => spzAbsorbNibble_a_le _ _) bs r h

theorem spzAbsorbAll_append (r : SpzEngine) (bs cs : List Byte) :
    spzAbsorbAll r (bs ++ cs) = spzAbsorbAll (spzAbsorbAll r bs) cs := List.foldl_append

@[simp] theorem spzSettle_a (r : SpzEngine) : (spzSettle r).a = 0 := by
  unfold spzSettle
  split
  · exact spzShuffle_a r
  · have h : r.a.toNat = 0 := by omega
    exact BitVec.eq_of_toNat_eq (by simpa using h)

theorem spzSettle_of_zero {r : SpzEngine} (h : r.a = 0) : spzSettle r = r := by
  unfold spzSettle
  rw [h]
  exact if_neg (by decide)

theorem spzSettle_perm (r : SpzEngine) (h : IsPermutation r.S) : IsPermutation (spzSettle r).S := by
  unfold spzSettle
  split
  · exact spzShuffle_perm r h
  · exact h

@[simp] theorem spzDrip_a (r : SpzEngine) : (spzDrip r).a = 0 := by
  rw [spzDrip, spzOutput_a, spzUpdate_a, spzSettle_a]

theorem spzDrip_perm (r : SpzEngine) (h : IsPermutation r.S) : IsPermutation (spzDrip r).S := by
  rw [spzDrip, spzOutput_S]
  exact spzUpdate_perm _ (spzSettle_perm r h)

theorem spzDrips_perm (n : Nat) (r : SpzEngine) (h : IsPermutation r.S) :
    IsPermutation (spzDrips n r).1.S := by
  induction n generalizing r with
  | zero => exact h
  | succ n ih => exact ih _ (spzDrip_perm r h)

theorem spzDrips_a (n : Nat) (r : SpzEngine) (h : r.a = 0) : (spzDrips n r).1.a = 0 := by
  induction n generalizing r with
  | zero => exact h
  | succ n ih => exact ih _ (spzDrip_a r)

@[simp] theorem spzDrips_length (n : Nat) (r : SpzEngine) : (spzDrips n r).2.length = n := by
  induction n generalizing r with
  | zero => rfl
  | succ n ih => rw [spzDrips]; simp [ih]

theorem spzDrips_add (m n : Nat) (r : SpzEngine) :
    spzDrips (m + n) r =
      ((spzDrips n (spzDrips m r).1).1, (spzDrips m r).2 ++ (spzDrips n (spzDrips m r).1).2) := by
  induction m generalizing r with
  | zero => simp [spzDrips]
  | succ m ih => rw [Nat.add_right_comm]; simp only [spzDrips, ih, List.cons_append]

@[simp] theorem spzSqueeze_length (n : Nat) (r : SpzEngine) : (spzSqueeze n r).2.length = n :=
  spzDrips_length n _

@[simp] theorem spzSqueeze_a (n : Nat) (r : SpzEngine) : (spzSqueeze n r).1.a = 0 :=
  spzDrips_a n _ (spzSettle_a r)

theorem spzSqueeze_perm (n : Nat) (r : SpzEngine) (h : IsPermutation r.S) :
    IsPermutation (spzSqueeze n r).1.S := spzDrips_perm n _ (spzSettle_perm r h)

theorem spzAbsorbStop_perm (cfg : Config) (r : SpzEngine) (h : IsPermutation r.S) :
    IsPermutation (spzAbsorbStop cfg r).S := by
  rw [spzAbsorbStop, spzBumpA_S]
  split
  · exact spzShuffle_perm r h
  · exact h

end Sys2Proof.Machine
end

