-- ==== Sys2Proof/Laws/State.lean ====
section
/-! SUPPORT. One lemma per field of State per named update, so that no proof unfolds a record update. -/

namespace Sys2Proof.Machine

@[simp] theorem putRc4_rc4 (r : PermEngine) (s : State) : (putRc4 r s).rc4 = r := rfl
@[simp] theorem putRc4_rc4p (r : PermEngine) (s : State) : (putRc4 r s).rc4p = s.rc4p := rfl
@[simp] theorem putRc4_rc4a (r : PermEngine) (s : State) : (putRc4 r s).rc4a = s.rc4a := rfl
@[simp] theorem putRc4_vmpc (r : PermEngine) (s : State) : (putRc4 r s).vmpc = s.vmpc := rfl
@[simp] theorem putRc4_spz (r : PermEngine) (s : State) : (putRc4 r s).spz = s.spz := rfl
@[simp] theorem putRc4_engstat (r : PermEngine) (s : State) : (putRc4 r s).engstat = s.engstat := rfl
@[simp] theorem putRc4_cmd (r : PermEngine) (s : State) : (putRc4 r s).cmd = s.cmd := rfl
@[simp] theorem putRc4_rsp (r : PermEngine) (s : State) : (putRc4 r s).rsp = s.rsp := rfl

@[simp] theorem putRc4p_rc4 (r : PermEngine) (s : State) : (putRc4p r s).rc4 = s.rc4 := rfl
@[simp] theorem putRc4p_rc4p (r : PermEngine) (s : State) : (putRc4p r s).rc4p = r := rfl
@[simp] theorem putRc4p_rc4a (r : PermEngine) (s : State) : (putRc4p r s).rc4a = s.rc4a := rfl
@[simp] theorem putRc4p_vmpc (r : PermEngine) (s : State) : (putRc4p r s).vmpc = s.vmpc := rfl
@[simp] theorem putRc4p_spz (r : PermEngine) (s : State) : (putRc4p r s).spz = s.spz := rfl
@[simp] theorem putRc4p_engstat (r : PermEngine) (s : State) : (putRc4p r s).engstat = s.engstat := rfl
@[simp] theorem putRc4p_cmd (r : PermEngine) (s : State) : (putRc4p r s).cmd = s.cmd := rfl
@[simp] theorem putRc4p_rsp (r : PermEngine) (s : State) : (putRc4p r s).rsp = s.rsp := rfl

@[simp] theorem putRc4a_rc4 (r : Rc4aEngine) (s : State) : (putRc4a r s).rc4 = s.rc4 := rfl
@[simp] theorem putRc4a_rc4p (r : Rc4aEngine) (s : State) : (putRc4a r s).rc4p = s.rc4p := rfl
@[simp] theorem putRc4a_rc4a (r : Rc4aEngine) (s : State) : (putRc4a r s).rc4a = r := rfl
@[simp] theorem putRc4a_vmpc (r : Rc4aEngine) (s : State) : (putRc4a r s).vmpc = s.vmpc := rfl
@[simp] theorem putRc4a_spz (r : Rc4aEngine) (s : State) : (putRc4a r s).spz = s.spz := rfl
@[simp] theorem putRc4a_engstat (r : Rc4aEngine) (s : State) : (putRc4a r s).engstat = s.engstat := rfl
@[simp] theorem putRc4a_cmd (r : Rc4aEngine) (s : State) : (putRc4a r s).cmd = s.cmd := rfl
@[simp] theorem putRc4a_rsp (r : Rc4aEngine) (s : State) : (putRc4a r s).rsp = s.rsp := rfl

@[simp] theorem putVmpc_rc4 (r : PermEngine) (s : State) : (putVmpc r s).rc4 = s.rc4 := rfl
@[simp] theorem putVmpc_rc4p (r : PermEngine) (s : State) : (putVmpc r s).rc4p = s.rc4p := rfl
@[simp] theorem putVmpc_rc4a (r : PermEngine) (s : State) : (putVmpc r s).rc4a = s.rc4a := rfl
@[simp] theorem putVmpc_vmpc (r : PermEngine) (s : State) : (putVmpc r s).vmpc = r := rfl
@[simp] theorem putVmpc_spz (r : PermEngine) (s : State) : (putVmpc r s).spz = s.spz := rfl
@[simp] theorem putVmpc_engstat (r : PermEngine) (s : State) : (putVmpc r s).engstat = s.engstat := rfl
@[simp] theorem putVmpc_cmd (r : PermEngine) (s : State) : (putVmpc r s).cmd = s.cmd := rfl
@[simp] theorem putVmpc_rsp (r : PermEngine) (s : State) : (putVmpc r s).rsp = s.rsp := rfl

@[simp] theorem putSpz_rc4 (r : SpzEngine) (s : State) : (putSpz r s).rc4 = s.rc4 := rfl
@[simp] theorem putSpz_rc4p (r : SpzEngine) (s : State) : (putSpz r s).rc4p = s.rc4p := rfl
@[simp] theorem putSpz_rc4a (r : SpzEngine) (s : State) : (putSpz r s).rc4a = s.rc4a := rfl
@[simp] theorem putSpz_vmpc (r : SpzEngine) (s : State) : (putSpz r s).vmpc = s.vmpc := rfl
@[simp] theorem putSpz_spz (r : SpzEngine) (s : State) : (putSpz r s).spz = r := rfl
@[simp] theorem putSpz_engstat (r : SpzEngine) (s : State) : (putSpz r s).engstat = s.engstat := rfl
@[simp] theorem putSpz_cmd (r : SpzEngine) (s : State) : (putSpz r s).cmd = s.cmd := rfl
@[simp] theorem putSpz_rsp (r : SpzEngine) (s : State) : (putSpz r s).rsp = s.rsp := rfl

@[simp] theorem setValid_rc4 (e : Eng) (b : Bool) (s : State) : (setValid e b s).rc4 = s.rc4 := rfl
@[simp] theorem setValid_rc4p (e : Eng) (b : Bool) (s : State) : (setValid e b s).rc4p = s.rc4p := rfl
@[simp] theorem setValid_rc4a (e : Eng) (b : Bool) (s : State) : (setValid e b s).rc4a = s.rc4a := rfl
@[simp] theorem setValid_vmpc (e : Eng) (b : Bool) (s : State) : (setValid e b s).vmpc = s.vmpc := rfl
@[simp] theorem setValid_spz (e : Eng) (b : Bool) (s : State) : (setValid e b s).spz = s.spz := rfl
@[simp] theorem setValid_engstat (e : Eng) (b : Bool) (s : State) : (setValid e b s).engstat = withBit e b s.engstat := rfl
@[simp] theorem setValid_cmd (e : Eng) (b : Bool) (s : State) : (setValid e b s).cmd = s.cmd := rfl
@[simp] theorem setValid_rsp (e : Eng) (b : Bool) (s : State) : (setValid e b s).rsp = s.rsp := rfl

@[simp] theorem respond_rc4 (r : Rsp) (s : State) : (respond r s).rc4 = s.rc4 := rfl
@[simp] theorem respond_rc4p (r : Rsp) (s : State) : (respond r s).rc4p = s.rc4p := rfl
@[simp] theorem respond_rc4a (r : Rsp) (s : State) : (respond r s).rc4a = s.rc4a := rfl
@[simp] theorem respond_vmpc (r : Rsp) (s : State) : (respond r s).vmpc = s.vmpc := rfl
@[simp] theorem respond_spz (r : Rsp) (s : State) : (respond r s).spz = s.spz := rfl
@[simp] theorem respond_engstat (r : Rsp) (s : State) : (respond r s).engstat = s.engstat := rfl
@[simp] theorem respond_cmd (r : Rsp) (s : State) : (respond r s).cmd = s.cmd := rfl
@[simp] theorem respond_rsp (r : Rsp) (s : State) : (respond r s).rsp = s.rsp ++ encodeRsp r := rfl

@[simp] theorem consume_rc4 (rest : List Byte) (s : State) : (consume rest s).rc4 = s.rc4 := rfl
@[simp] theorem consume_rc4p (rest : List Byte) (s : State) : (consume rest s).rc4p = s.rc4p := rfl
@[simp] theorem consume_rc4a (rest : List Byte) (s : State) : (consume rest s).rc4a = s.rc4a := rfl
@[simp] theorem consume_vmpc (rest : List Byte) (s : State) : (consume rest s).vmpc = s.vmpc := rfl
@[simp] theorem consume_spz (rest : List Byte) (s : State) : (consume rest s).spz = s.spz := rfl
@[simp] theorem consume_engstat (rest : List Byte) (s : State) : (consume rest s).engstat = s.engstat := rfl
@[simp] theorem consume_cmd (rest : List Byte) (s : State) : (consume rest s).cmd = rest := rfl
@[simp] theorem consume_rsp (rest : List Byte) (s : State) : (consume rest s).rsp = s.rsp := rfl

@[simp] theorem hostSend_rc4 (bs : List Byte) (s : State) : (hostSend bs s).rc4 = s.rc4 := rfl
@[simp] theorem hostSend_rc4p (bs : List Byte) (s : State) : (hostSend bs s).rc4p = s.rc4p := rfl
@[simp] theorem hostSend_rc4a (bs : List Byte) (s : State) : (hostSend bs s).rc4a = s.rc4a := rfl
@[simp] theorem hostSend_vmpc (bs : List Byte) (s : State) : (hostSend bs s).vmpc = s.vmpc := rfl
@[simp] theorem hostSend_spz (bs : List Byte) (s : State) : (hostSend bs s).spz = s.spz := rfl
@[simp] theorem hostSend_engstat (bs : List Byte) (s : State) : (hostSend bs s).engstat = s.engstat := rfl
@[simp] theorem hostSend_cmd (bs : List Byte) (s : State) : (hostSend bs s).cmd = s.cmd ++ bs := rfl
@[simp] theorem hostSend_rsp (bs : List Byte) (s : State) : (hostSend bs s).rsp = s.rsp := rfl

@[simp] theorem hostTake_rc4 (n : Nat) (s : State) : (hostTake n s).rc4 = s.rc4 := rfl
@[simp] theorem hostTake_rc4p (n : Nat) (s : State) : (hostTake n s).rc4p = s.rc4p := rfl
@[simp] theorem hostTake_rc4a (n : Nat) (s : State) : (hostTake n s).rc4a = s.rc4a := rfl
@[simp] theorem hostTake_vmpc (n : Nat) (s : State) : (hostTake n s).vmpc = s.vmpc := rfl
@[simp] theorem hostTake_spz (n : Nat) (s : State) : (hostTake n s).spz = s.spz := rfl
@[simp] theorem hostTake_engstat (n : Nat) (s : State) : (hostTake n s).engstat = s.engstat := rfl
@[simp] theorem hostTake_cmd (n : Nat) (s : State) : (hostTake n s).cmd = s.cmd := rfl
@[simp] theorem hostTake_rsp (n : Nat) (s : State) : (hostTake n s).rsp = s.rsp.drop n := rfl

end Sys2Proof.Machine
end

