-- ==== Sys2Proof/Laws/Ops.lean ====
section
/-! SUPPORT. What each shared operation of the command frames can do, said once: the valid bits, the
response bytes, the rejection, an INIT, a use of an engine, the operand checks. -/

namespace Sys2Proof.Machine

/-! ## Valid bits -/

theorem getLsbD_withBit (e e' : Eng) (b : Bool) (v : BitVec 5) :
    (withBit e b v).getLsbD (engBit e') = if e' = e then b else v.getLsbD (engBit e') := by
  cases e <;> cases e' <;> cases b <;> simp [withBit, engBit]

theorem valid_setValid (e e' : Eng) (b : Bool) (s : State) :
    valid e' (setValid e b s) = if e' = e then b else valid e' s :=
  getLsbD_withBit e e' b s.engstat

@[simp] theorem valid_setValid_self (e : Eng) (b : Bool) (s : State) : valid e (setValid e b s) = b := by
  rw [valid_setValid, if_pos rfl]

theorem valid_setValid_of_ne {e e' : Eng} (h : e' ≠ e) (b : Bool) (s : State) :
    valid e' (setValid e b s) = valid e' s := by
  rw [valid_setValid, if_neg h]

@[simp] theorem valid_respond (e : Eng) (r : Rsp) (s : State) : valid e (respond r s) = valid e s := rfl
@[simp] theorem valid_consume (e : Eng) (rest : List Byte) (s : State) :
    valid e (consume rest s) = valid e s := rfl
@[simp] theorem valid_putRc4 (e : Eng) (r : PermEngine) (s : State) : valid e (putRc4 r s) = valid e s := rfl
@[simp] theorem valid_putRc4p (e : Eng) (r : PermEngine) (s : State) : valid e (putRc4p r s) = valid e s := rfl
@[simp] theorem valid_putRc4a (e : Eng) (r : Rc4aEngine) (s : State) : valid e (putRc4a r s) = valid e s := rfl
@[simp] theorem valid_putVmpc (e : Eng) (r : PermEngine) (s : State) : valid e (putVmpc r s) = valid e s := rfl
@[simp] theorem valid_putSpz (e : Eng) (r : SpzEngine) (s : State) : valid e (putSpz r s) = valid e s := rfl

@[simp] theorem valid_reset (e : Eng) : valid e State.reset = false := by cases e <;> decide

/-- Two states with equal valid bits hold equal ENGSTAT. -/
theorem engstat_ext {s t : State} (h : ∀ e, valid e s = valid e t) : s.engstat = t.engstat := by
  refine BitVec.eq_of_getLsbD_eq fun n hn => ?_
  have : n = 0 ∨ n = 1 ∨ n = 2 ∨ n = 3 ∨ n = 4 := by omega
  rcases this with rfl | rfl | rfl | rfl | rfl
  exacts [h .rc4, h .rc4p, h .rc4a, h .vmpc, h .spz]

/-! ## Responses and rejections -/

@[simp] theorem encodeRsp_length (r : Rsp) : (encodeRsp r).length = r.data.length + 3 := by
  simp [encodeRsp]

@[simp] theorem encodeRsp_empty (st : Status) : encodeRsp ⟨st, []⟩ = [statusCode st, 0, 0] := by
  simp [encodeRsp]

@[simp] theorem encodeRsp_one (b : Byte) : encodeRsp ⟨.ok, [b]⟩ = [0, 0, 1, b] := by
  simp [encodeRsp, statusCode]

@[simp] theorem encodeRsp_two (b c : Byte) : encodeRsp ⟨.ok, [b, c]⟩ = [0, 0, 2, b, c] := by
  simp [encodeRsp, statusCode]

/-- R80, R81: a response is appended to RSP and nothing else changes. -/
theorem respond_eq (r : Rsp) (s : State) : respond r s = { s with rsp := s.rsp ++ encodeRsp r } := rfl

/-- R224: what a rejection leaves, for every state. -/
theorem raiseReject_eq (inv : Option Eng) (code : Status) (s : State) :
    raiseReject inv code s =
      { s with
        engstat := (match inv with | some e => withBit e false s.engstat | none => s.engstat)
        rsp := s.rsp ++ [statusCode code, 0, 0] } := by
  cases inv <;> simp [raiseReject, respond, setValid]

/-! ## The command frames -/

theorem initEngine_rejected (e : Eng) (c : Status) (build : State → State) (s : State) :
    initEngine e (some c) build s = raiseReject (some e) c s := rfl

theorem initEngine_accepted (e : Eng) (build : State → State) (s : State) :
    initEngine e none build s = respond ⟨.ok, []⟩ (setValid e true (build s)) := rfl

theorem useEngine_invalid {e : Eng} {s : State} (h : valid e s = false)
    (run : State → State × List Byte) : useEngine e run s = raiseReject none .errNotInit s := by
  simp [useEngine, h]

theorem useEngine_valid {e : Eng} {s : State} (h : valid e s = true)
    (run : State → State × List Byte) :
    useEngine e run s = respond ⟨.ok, (run s).2⟩ (run s).1 := by
  simp [useEngine, h]

/-! ## Operand checks -/

theorem keyReject_eq_none_iff (n : Nat) : keyReject n = none ↔ 1 ≤ n ∧ n ≤ 256 := by
  unfold keyReject
  simp only [Config.keyLenMin, Config.keyLenMax]
  split_ifs <;> simp <;> omega

theorem keyReject_of_accepted {n : Nat} (h : 1 ≤ n) (h' : n ≤ 256) : keyReject n = none :=
  (keyReject_eq_none_iff n).mpr ⟨h, h'⟩

theorem keyIvReject_eq_none_iff (n m : Nat) : keyIvReject n m = none ↔ (1 ≤ n ∧ n ≤ 256) ∧ m = n := by
  unfold keyIvReject
  rw [← keyReject_eq_none_iff]
  cases keyReject n <;> simp

/-- An OK status is never a reason to reject. -/
theorem keyIvReject_ne_ok (n m : Nat) : keyIvReject n m ≠ some .ok := by
  unfold keyIvReject keyReject
  split_ifs <;> simp

theorem keyReject_ne_ok (n : Nat) : keyReject n ≠ some .ok := by
  unfold keyReject
  split_ifs <;> simp

end Sys2Proof.Machine
end

