-- ==== Sys2Proof/Laws/Exec.lean ====
section
/-! SUPPORT. What one command can do, said once for all twelve: every command is an INIT or a use of a valid
engine (`exec_form`), and how its response and its effect depend on the state (`exec_effect`). -/

namespace Sys2Proof.Machine

/-! ## Records of engines -/

theorem sameRecord_refl (e : Eng) (s : State) : SameRecord e s s := by cases e <;> rfl

theorem sameRecord_symm {e : Eng} {s t : State} (h : SameRecord e s t) : SameRecord e t s := by
  cases e <;> exact Eq.symm h

theorem sameRecord_trans {e : Eng} {s t u : State} (h : SameRecord e s t) (h' : SameRecord e t u) :
    SameRecord e s u := by
  cases e <;> exact Eq.trans h h'

@[simp] theorem sameRecord_setValid_right (e e' : Eng) (b : Bool) (s t : State) :
    SameRecord e s (setValid e' b t) ↔ SameRecord e s t := by cases e <;> rfl

@[simp] theorem sameRecord_setValid_left (e e' : Eng) (b : Bool) (s t : State) :
    SameRecord e (setValid e' b s) t ↔ SameRecord e s t := by cases e <;> rfl

@[simp] theorem sameRecord_respond_right (e : Eng) (r : Rsp) (s t : State) :
    SameRecord e s (respond r t) ↔ SameRecord e s t := by cases e <;> rfl

@[simp] theorem sameRecord_respond_left (e : Eng) (r : Rsp) (s t : State) :
    SameRecord e (respond r s) t ↔ SameRecord e s t := by cases e <;> rfl

theorem valid_congr {s t : State} (h : s.engstat = t.engstat) (e : Eng) : valid e s = valid e t := by
  rw [valid, valid, h]

/-- A state is its five records, its five valid bits and its two streams. -/
theorem state_ext {s t : State} (h : ∀ e, SameRecord e s t ∧ valid e s = valid e t)
    (hc : s.cmd = t.cmd) (hr : s.rsp = t.rsp) : s = t := by
  have hv := engstat_ext fun e => (h e).2
  have h0 : s.rc4 = t.rc4 := (h .rc4).1
  have h1 : s.rc4p = t.rc4p := (h .rc4p).1
  have h2 : s.rc4a = t.rc4a := (h .rc4a).1
  have h3 : s.vmpc = t.vmpc := (h .vmpc).1
  have h4 : s.spz = t.spz := (h .spz).1
  cases s
  cases t
  simp_all

/-! ## The two forms of a command -/

/-- `g` writes the record of engine `e` and nothing else. -/
def WritesOnly (e : Eng) (g : State → State) : Prop :=
  ∀ s, (g s).cmd = s.cmd ∧ (g s).rsp = s.rsp ∧ (g s).engstat = s.engstat ∧
    ∀ e', e' ≠ e → SameRecord e' s (g s)

/-- The command is an INIT: it is rejected with `check`, or builds its engine from the operands alone. -/
def IsInitForm (i : Instr) (check : Option Status) (build : State → State) : Prop :=
  i.isInit = true ∧ check ≠ some .ok ∧ (∀ s, exec i s = .next (initEngine i.eng check build s)) ∧
    WritesOnly i.eng build ∧ ∀ s s', SameRecord i.eng (build s) (build s')

/-- The command uses a valid engine: what it does to the engine and what it answers depend on that
engine's record alone. -/
def IsUseForm (i : Instr) (run : State → State × List Byte) : Prop :=
  i.isInit = false ∧ (∀ s, exec i s = .next (useEngine i.eng run s)) ∧
    (∀ s, (run s).2.length ≤ 65535) ∧ WritesOnly i.eng (fun s => (run s).1) ∧
    ∀ s s', SameRecord i.eng s s' → (run s).2 = (run s').2 ∧ SameRecord i.eng (run s).1 (run s').1

theorem writesOnly_putRc4 (f : State → PermEngine) : WritesOnly .rc4 (fun s => putRc4 (f s) s) :=
  fun _ => ⟨rfl, rfl, rfl, fun e h => by cases e <;> first | rfl | exact absurd rfl h⟩
theorem writesOnly_putRc4p (f : State → PermEngine) : WritesOnly .rc4p (fun s => putRc4p (f s) s) :=
  fun _ => ⟨rfl, rfl, rfl, fun e h => by cases e <;> first | rfl | exact absurd rfl h⟩
theorem writesOnly_putRc4a (f : State → Rc4aEngine) : WritesOnly .rc4a (fun s => putRc4a (f s) s) :=
  fun _ => ⟨rfl, rfl, rfl, fun e h => by cases e <;> first | rfl | exact absurd rfl h⟩
theorem writesOnly_putVmpc (f : State → PermEngine) : WritesOnly .vmpc (fun s => putVmpc (f s) s) :=
  fun _ => ⟨rfl, rfl, rfl, fun e h => by cases e <;> first | rfl | exact absurd rfl h⟩
theorem writesOnly_putSpz (f : State → SpzEngine) : WritesOnly .spz (fun s => putSpz (f s) s) :=
  fun _ => ⟨rfl, rfl, rfl, fun e h => by cases e <;> first | rfl | exact absurd rfl h⟩

/-- Every command has one of the two forms. -/
theorem exec_form (i : Instr) :
    (∃ check build, IsInitForm i check build) ∨ ∃ run, IsUseForm i run := by
  cases i with
  | rc4Init key =>
    exact .inl ⟨_, _, rfl, keyReject_ne_ok key.length, fun _ => rfl, writesOnly_putRc4 _, fun _ _ => rfl⟩
  | rc4pInit key iv =>
    exact .inl ⟨_, _, rfl, keyIvReject_ne_ok key.length iv.length, fun _ => rfl, writesOnly_putRc4p _,
      fun _ _ => rfl⟩
  | rc4aInit key =>
    exact .inl ⟨_, _, rfl, keyReject_ne_ok key.length, fun _ => rfl, writesOnly_putRc4a _, fun _ _ => rfl⟩
  | vmpcInit key iv =>
    exact .inl ⟨_, _, rfl, keyIvReject_ne_ok key.length iv.length, fun _ => rfl, writesOnly_putVmpc _,
      fun _ _ => rfl⟩
  | spzInit key =>
    exact .inl ⟨_, _, rfl, keyReject_ne_ok key.length, fun _ => rfl, writesOnly_putSpz _, fun _ _ => rfl⟩
  | rc4Gen =>
    refine .inr ⟨_, rfl, fun _ => rfl, fun _ => by show 1 ≤ 65535; omega, writesOnly_putRc4 _,
      fun s s' h => ?_⟩
    have h : s.rc4 = s'.rc4 := h
    dsimp only; rw [h]; exact ⟨rfl, rfl⟩
  | rc4pGen =>
    refine .inr ⟨_, rfl, fun _ => rfl, fun _ => by show 1 ≤ 65535; omega, writesOnly_putRc4p _,
      fun s s' h => ?_⟩
    have h : s.rc4p = s'.rc4p := h
    dsimp only; rw [h]; exact ⟨rfl, rfl⟩
  | rc4aGen =>
    refine .inr ⟨_, rfl, fun _ => rfl, fun _ => by show 2 ≤ 65535; omega, writesOnly_putRc4a _,
      fun s s' h => ?_⟩
    have h : s.rc4a = s'.rc4a := h
    dsimp only; rw [h]; exact ⟨rfl, rfl⟩
  | vmpcGen =>
    refine .inr ⟨_, rfl, fun _ => rfl, fun _ => by show 1 ≤ 65535; omega, writesOnly_putVmpc _,
      fun s s' h => ?_⟩
    have h : s.vmpc = s'.vmpc := h
    dsimp only; rw [h]; exact ⟨rfl, rfl⟩
  | spzSqueeze count =>
    refine .inr ⟨_, rfl, fun _ => rfl, fun _ => ?_, writesOnly_putSpz _, fun s s' h => ?_⟩
    · show (spzSqueeze _ _).2.length ≤ 65535
      rw [spzSqueeze_length]
      omega
    · have h : s.spz = s'.spz := h
      dsimp only; rw [h]; exact ⟨rfl, rfl⟩
  | spzAbsorb data =>
    refine .inr ⟨_, rfl, fun _ => rfl, fun _ => Nat.zero_le _, writesOnly_putSpz _, fun s s' h => ?_⟩
    have h : s.spz = s'.spz := h
    dsimp only; rw [h]; exact ⟨rfl, rfl⟩
  | spzAbsorbStop =>
    refine .inr ⟨_, rfl, fun _ => rfl, fun _ => Nat.zero_le _, writesOnly_putSpz _, fun s s' h => ?_⟩
    have h : s.spz = s'.spz := h
    dsimp only; rw [h]; exact ⟨rfl, rfl⟩

/-! ## The effect of a command -/

/-- What a command does: `f` is its effect on the state before the response, `rsp` the response. -/
structure Effect (i : Instr) (f : State → State) (rsp : State → Rsp) : Prop where
  /-- the command takes `f` and appends its response -/
  exec_eq : ∀ s, exec i s = .next (respond (rsp s) (f s))
  cmd_eq : ∀ s, (f s).cmd = s.cmd
  rsp_eq : ∀ s, (f s).rsp = s.rsp
  /-- the other engines keep their records and valid bits (R32) -/
  other : ∀ s e, e ≠ i.eng → SameRecord e s (f s) ∧ valid e (f s) = valid e s
  length_le : ∀ s, (rsp s).data.length ≤ 65535
  /-- a rejection carries no data (R81) -/
  no_data : ∀ s, (rsp s).status ≠ .ok → (rsp s).data = []
  /-- only an INIT changes its engine's valid bit (R28) -/
  use_valid : i.isInit = false → ∀ s, valid i.eng (f s) = valid i.eng s
  init_valid : i.isInit = true →
    ∀ s, (rsp s).data = [] ∧ (valid i.eng (f s) = true ↔ (rsp s).status = .ok)
  /-- an INIT depends on its operands alone (R17) -/
  init_indep : i.isInit = true → ∀ s s', rsp s = rsp s' ∧
    valid i.eng (f s) = valid i.eng (f s') ∧
    (valid i.eng (f s) = true → SameRecord i.eng (f s) (f s'))
  /-- the other commands depend on their engine's valid bit, and on its record when it is valid -/
  use_indep : i.isInit = false → ∀ s s', valid i.eng s = valid i.eng s' →
    (valid i.eng s = true → SameRecord i.eng s s') →
    rsp s = rsp s' ∧ (valid i.eng s = true → SameRecord i.eng (f s) (f s'))
  /-- equal records and valid bits of its engine give equal ones, and equal responses -/
  own : ∀ s s', valid i.eng s = valid i.eng s' → SameRecord i.eng s s' →
    rsp s = rsp s' ∧ SameRecord i.eng (f s) (f s')

theorem effect_of_init {i : Instr} {check : Option Status} {build : State → State}
    (h : IsInitForm i check build) : ∃ f rsp, Effect i f rsp := by
  obtain ⟨hi, hc, he, hw, hs⟩ := h
  cases check with
  | none =>
    refine ⟨fun s => setValid i.eng true (build s), fun _ => ⟨.ok, []⟩, ?_⟩
    exact
      { exec_eq := fun s => by rw [he]; rfl
        cmd_eq := fun s => (hw s).1
        rsp_eq := fun s => (hw s).2.1
        other := fun s e hne => ⟨by simpa using (hw s).2.2.2 e hne, by
          rw [valid_setValid_of_ne hne]; exact valid_congr (hw s).2.2.1 e⟩
        length_le := fun _ => Nat.zero_le _
        no_data := fun _ _ => rfl
        use_valid := fun hu => by simp [hi] at hu
        init_valid := fun _ _ => by simp
        init_indep := fun _ s s' => ⟨rfl, by simp, fun _ => by simpa using hs s s'⟩
        use_indep := fun hu => by simp [hi] at hu
        own := fun s s' _ _ => ⟨rfl, by simpa using hs s s'⟩ }
  | some code =>
    have hne : code ≠ .ok := fun h => hc (by rw [h])
    refine ⟨fun s => setValid i.eng false s, fun _ => ⟨code, []⟩, ?_⟩
    exact
      { exec_eq := fun s => by rw [he]; rfl
        cmd_eq := fun _ => rfl
        rsp_eq := fun _ => rfl
        other := fun s e hne => ⟨by simpa using sameRecord_refl e s, valid_setValid_of_ne hne _ _⟩
        length_le := fun _ => Nat.zero_le _
        no_data := fun _ _ => rfl
        use_valid := fun hu => by simp [hi] at hu
        init_valid := fun _ _ => by simp [hne]
        init_indep := fun _ s s' => ⟨rfl, by simp, fun hv => by simp at hv⟩
        use_indep := fun hu => by simp [hi] at hu
        own := fun s s' _ hr => ⟨rfl, by simpa using hr⟩ }

theorem effect_of_use {i : Instr} {run : State → State × List Byte} (h : IsUseForm i run) :
    ∃ f rsp, Effect i f rsp := by
  obtain ⟨hi, he, hl, hw, hs⟩ := h
  refine ⟨fun s => if valid i.eng s then (run s).1 else s,
    fun s => if valid i.eng s then ⟨.ok, (run s).2⟩ else ⟨.errNotInit, []⟩, ?_⟩
  exact
    { exec_eq := fun s => by
        rw [he]; cases hv : valid i.eng s <;> simp [useEngine, hv, raiseReject]
      cmd_eq := fun s => by split; exacts [(hw s).1, rfl]
      rsp_eq := fun s => by split; exacts [(hw s).2.1, rfl]
      other := fun s e hne => by
        split
        exacts [⟨(hw s).2.2.2 e hne, valid_congr (hw s).2.2.1 e⟩, ⟨sameRecord_refl e s, rfl⟩]
      length_le := fun s => by split; exacts [hl s, Nat.zero_le _]
      no_data := fun s => by split <;> simp
      use_valid := fun _ s => by split; exacts [valid_congr (hw s).2.2.1 _, rfl]
      init_valid := fun hu => by simp [hi] at hu
      init_indep := fun hu => by simp [hi] at hu
      use_indep := fun _ s s' hv hr => by
        rw [← hv]
        cases hb : valid i.eng s with
        | false => simp
        | true => have := hs s s' (hr hb); simp [this]
      own := fun s s' hv hr => by
        rw [← hv]
        cases hb : valid i.eng s with
        | false => simpa
        | true => have := hs s s' hr; simp [this] }

/-- The effect of every command. -/
theorem exec_effect (i : Instr) : ∃ f rsp, Effect i f rsp := by
  rcases exec_form i with ⟨check, build, h⟩ | ⟨run, h⟩
  · exact effect_of_init h
  · exact effect_of_use h

theorem statusCode_eq_zero (c : Status) : statusCode c = 0 ↔ c = .ok := by cases c <;> decide

end Sys2Proof.Machine
end

