-- ==== Sys2Proof/Laws/Pass.lean ====
section
/-! SUPPORT. A fold of a schedule step over positions is the schedule pass `SwapPass` speaks of. -/

namespace Sys2Proof.Machine

/-- A fold of swap steps over the positions `q 0, …, q (len - 1)` is a `SwapPass`. -/
theorem swapPass_foldl (len : Nat) (q : Nat → Nat) (acc : Nat → Table → Byte → Byte)
    (step : Table × Byte → Nat → Table × Byte)
    (hstep : ∀ p n, n < len →
      step p (q n) = (swapCells p.1 (BitVec.ofNat 8 (q n)) (acc n p.1 p.2), acc n p.1 p.2))
    (p : Table × Byte) :
    SwapPass len (fun n => BitVec.ofNat 8 (q n)) acc p.1 p.2
      (((List.range len).map q).foldl step p).1 (((List.range len).map q).foldl step p).2 := by
  refine ⟨fun n => (((List.range n).map q).foldl step p).1,
    fun n => (((List.range n).map q).foldl step p).2, rfl, rfl, rfl, rfl, fun n hn => ?_⟩
  simp only [List.range_succ, List.map_append, List.foldl_append, List.map_cons, List.map_nil,
    List.foldl_cons, List.foldl_nil]
  rw [hstep _ n hn]
  exact ⟨rfl, swapCells_exchanged _ _ _⟩

theorem ksaPass_eq (key : List Byte) (p : Table × Byte) :
    ksaPass key p = ((List.range 256).map id).foldl (ksaStep key) p := by
  unfold ksaPass
  rw [List.map_id]

theorem ksaPass_swapPass (key : List Byte) (p : Table × Byte) :
    KsaPass key p.1 p.2 (ksaPass key p).1 (ksaPass key p).2 := by
  rw [ksaPass_eq]
  exact swapPass_foldl 256 id _ (ksaStep key) (fun _ _ _ => rfl) p

theorem layer2_eq (key iv : List Byte) (p : Table × Byte) :
    layer2 key iv p = ((List.range 128).map (127 - ·)).foldl (layer2Step key iv) p := by
  unfold layer2
  have : (List.range (Config.rc4pL2Start + 1)).reverse = (List.range 128).map (127 - ·) := by decide
  rw [this]

theorem layer3_eq (key : List Byte) (p : Table × Byte) :
    layer3 key p = ((List.range 256).map zigzag).foldl (ksaStep key) p := by
  unfold layer3
  rfl

theorem vmpcPass_eq (cfg : Config) (src : List Byte) (p : Table × Byte) (pass : Nat) :
    vmpcPass cfg src p pass = ((List.range 256).map id).foldl (vmpcStep cfg src pass) p := by
  unfold vmpcPass
  rw [List.map_id]

/-- The three passes over one input, written out. -/
theorem vmpcFold_eq (cfg : Config) (src : List Byte) (p : Table × Byte) :
    vmpcFold cfg src p = vmpcPass cfg src (vmpcPass cfg src (vmpcPass cfg src p 0) 1) 2 := rfl

end Sys2Proof.Machine
end

