-- ==== Sys2Proof/Laws/PerInstr.lean ====
section
/-! SUPPORT. Per command: its packet is as long as its header says (rules R70, R74). -/

namespace Sys2Proof.Laws.PacketLength

/-- R70, R74: the packet of a well-formed command is four header bytes and the payload its header asks
for. -/
def Statement (i : Instr) : Prop :=
  i.wellFormed = true → (encode i).length = 4 + headerPayloadLength (encodeHeader i)

/-- Commands of format K and L. -/
theorem of_len {op : Opcode} {f : Format} {m : Word32} (hf : f = .k ∨ f = .l)
    (hr : (⟨op, f, m, 0xFFFFFC00⟩ : OpRow) ∈ opcodeTable)
    (hm : m &&& 0xFFFFFC00#32 = m) (h0 : m.extractLsb' 0 10 = 0#10)
    {bs : List Byte} (hw : fitsLenField bs = true) :
    bs.length = headerPayloadLength (headerWithLen m bs) := by
  have hl : bs.length < 1024 := by simpa [fitsLenField] using hw
  obtain ⟨h1, h2⟩ := headerWithLen_spec hm h0 hl
  unfold headerPayloadLength
  rw [lookupRow_eq_some hr (by simpa [OpRow.selects] using h1)]
  rcases hf with rfl | rfl <;> exact h2.symm

/-- Commands of format KV. -/
theorem of_lens {op : Opcode} {m : Word32} (hr : (⟨op, .kv, m, 0xFFF00000⟩ : OpRow) ∈ opcodeTable)
    (hm : m &&& 0xFFF00000#32 = m) (h0 : m.extractLsb' 0 10 = 0#10) (h1 : m.extractLsb' 10 10 = 0#10)
    {key iv : List Byte} (hw : (fitsLenField key && fitsLenField iv) = true) :
    (key ++ iv).length = headerPayloadLength (headerWithLens m key iv) := by
  have hl : key.length < 1024 ∧ iv.length < 1024 := by simpa [fitsLenField] using hw
  obtain ⟨e1, e2, e3⟩ := headerWithLens_spec hm h0 h1 hl.1 hl.2
  unfold headerPayloadLength
  rw [lookupRow_eq_some hr (by simpa [OpRow.selects] using e1)]
  simp [payloadLength, e2, e3]

theorem length_encode (i : Instr) : (encode i).length = 4 + (encodePayload i).length := by
  rw [encode, List.length_append]; rfl

theorem rc4Init (key : List Byte) : Statement (.rc4Init key) := fun hw =>
  (length_encode _).trans (congrArg (4 + ·) (of_len (op := .rc4Init) (.inl rfl) (by decide) (by decide) (by decide) hw))

theorem rc4Gen : Statement .rc4Gen := fun _ => by decide

theorem rc4pInit (key iv : List Byte) : Statement (.rc4pInit key iv) := fun hw =>
  (length_encode _).trans (congrArg (4 + ·) (of_lens (op := .rc4pInit) (by decide) (by decide) (by decide) (by decide) hw))

theorem rc4pGen : Statement .rc4pGen := fun _ => by decide

theorem rc4aInit (key : List Byte) : Statement (.rc4aInit key) := fun hw =>
  (length_encode _).trans (congrArg (4 + ·) (of_len (op := .rc4aInit) (.inl rfl) (by decide) (by decide) (by decide) hw))

theorem rc4aGen : Statement .rc4aGen := fun _ => by decide

theorem vmpcInit (key iv : List Byte) : Statement (.vmpcInit key iv) := fun hw =>
  (length_encode _).trans (congrArg (4 + ·) (of_lens (op := .vmpcInit) (by decide) (by decide) (by decide) (by decide) hw))

theorem vmpcGen : Statement .vmpcGen := fun _ => by decide

theorem spzInit (key : List Byte) : Statement (.spzInit key) := fun hw =>
  (length_encode _).trans (congrArg (4 + ·) (of_len (op := .spzInit) (.inl rfl) (by decide) (by decide) (by decide) hw))

/-- COUNT lies outside the mask of its row. -/
theorem count_and_mask : ∀ c : BitVec 16, c.setWidth 32 &&& 0xFFFF0000#32 = 0#32 := by
  intro c
  refine BitVec.eq_of_getLsbD_eq fun n hn => ?_
  by_cases h : n < 16
  · have : (0xFFFF0000#32).getLsbD n = false := by revert n; decide
    simp [this]
  · simp [BitVec.getLsbD_of_ge c n (by omega)]

theorem spzSqueeze (count : BitVec 16) : Statement (.spzSqueeze count) := fun _ => by
  have hs : (0x42000000#32 ||| count.setWidth 32) &&& 0xFFFF0000#32 = 0x42000000#32 := by
    rw [BitVec.and_or_distrib_right, count_and_mask]; decide
  have hr : lookupRow (encodeHeader (.spzSqueeze count)) =
      some ⟨.spzSqueeze, .q, 0x42000000, 0xFFFF0000⟩ :=
    lookupRow_eq_some (by decide) (by simpa [OpRow.selects, encodeHeader] using hs)
  rw [headerPayloadLength, hr]
  exact length_encode _

theorem spzAbsorb (data : List Byte) : Statement (.spzAbsorb data) := fun hw =>
  (length_encode _).trans (congrArg (4 + ·) (of_len (op := .spzAbsorb) (.inr rfl) (by decide) (by decide) (by decide) hw))

theorem spzAbsorbStop : Statement .spzAbsorbStop := fun _ => by decide

end Sys2Proof.Laws.PacketLength
end

