-- ==== Sys2Proof/Tests/Slice0.lean ====
section
/-! SUPPORT. Tests: the well-formedness smoke, decoding of words written out from the spec, one-command tests
with the spec's own examples or hand calculations from its rules, and a witness for the hypotheses of
every obligation. -/

namespace Sys2Proof.Tests

open Sys2Proof Sys2Proof.Machine

/-! ## Helpers -/

/-- Every engine valid, on the identity table, with zero scalars; both streams empty. -/
def ready : State where
  rc4 := ⟨0, 0, identityTable⟩
  rc4p := ⟨0, 0, identityTable⟩
  rc4a := ⟨0, 0, 0, identityTable, identityTable⟩
  vmpc := ⟨0, 0, identityTable⟩
  spz := ⟨0, 0, 0, 0, 0, 0, identityTable⟩
  engstat := 0b11111
  cmd := []
  rsp := []

/-- The state a command leaves. -/
def after (i : Instr) (s : State) : State :=
  match exec i s with
  | .next t => t
  | .fault _ => s
  | .refused _ => s

/-- The state a step leaves. -/
def afterStep (s : State) : State :=
  match step s with
  | .next t => t
  | .fault _ => s
  | .refused _ => s

/-- `n` zero bytes. -/
def zeros (n : Nat) : List Byte := List.replicate n 0

/-! ## Well-formedness (R73, R79): a sequence of 1024 bytes fits no length field, one of 1023 does -/

theorem test_wf_rc4Init_long : (Instr.rc4Init (zeros 1024)).wellFormed = false := by decide +kernel
theorem test_wf_rc4pInit_long_key : (Instr.rc4pInit (zeros 1024) []).wellFormed = false := by decide +kernel
theorem test_wf_rc4pInit_long_iv : (Instr.rc4pInit [] (zeros 1024)).wellFormed = false := by decide +kernel
theorem test_wf_rc4aInit_long : (Instr.rc4aInit (zeros 1024)).wellFormed = false := by decide +kernel
theorem test_wf_vmpcInit_long_key : (Instr.vmpcInit (zeros 1024) []).wellFormed = false := by decide +kernel
theorem test_wf_vmpcInit_long_iv : (Instr.vmpcInit [] (zeros 1024)).wellFormed = false := by decide +kernel
theorem test_wf_spzInit_long : (Instr.spzInit (zeros 1024)).wellFormed = false := by decide +kernel
theorem test_wf_spzAbsorb_long : (Instr.spzAbsorb (zeros 1024)).wellFormed = false := by decide +kernel

theorem test_wf_longest :
    (Instr.rc4pInit (zeros 1023) (zeros 1023)).wellFormed = true ∧
    (Instr.spzAbsorb (zeros 1023)).wellFormed = true := by decide +kernel

/-! ## Decoding, the words written out from R71 to R75, R85 and T25 -/

theorem test_decode_rc4Init :
    decode [0x01, 0x00, 0x00, 0x03, 0x4B, 0x65, 0x79, 0x02] =
      .instr (.rc4Init [0x4B, 0x65, 0x79]) [0x02] := by decide
theorem test_decode_rc4Gen : decode [0x02, 0x00, 0x00, 0x00] = .instr .rc4Gen [] := by decide
theorem test_decode_rc4pInit :
    decode [0x11, 0x00, 0x08, 0x03, 1, 2, 3, 4, 5] = .instr (.rc4pInit [1, 2, 3] [4, 5]) [] := by decide
theorem test_decode_rc4pGen : decode [0x12, 0x00, 0x00, 0x00] = .instr .rc4pGen [] := by decide
theorem test_decode_rc4aInit :
    decode [0x21, 0x00, 0x00, 0x01, 0xFF] = .instr (.rc4aInit [0xFF]) [] := by decide
theorem test_decode_rc4aGen : decode [0x22, 0x00, 0x00, 0x00] = .instr .rc4aGen [] := by decide
theorem test_decode_vmpcInit :
    decode [0x31, 0x00, 0x08, 0x01, 0x00, 0x01, 0x02] = .instr (.vmpcInit [0x00] [0x01, 0x02]) [] := by
  decide
theorem test_decode_vmpcGen : decode [0x32, 0x00, 0x00, 0x00] = .instr .vmpcGen [] := by decide
theorem test_decode_spzInit :
    decode [0x41, 0x00, 0x00, 0x02, 0x01, 0x23] = .instr (.spzInit [0x01, 0x23]) [] := by decide
theorem test_decode_spzSqueeze : decode [0x42, 0x00, 0xFF, 0xFF] = .instr (.spzSqueeze 65535) [] := by decide
theorem test_decode_spzAbsorb :
    decode [0x43, 0x00, 0x00, 0x00, 0x43] = .instr (.spzAbsorb []) [0x43] := by decide
theorem test_decode_spzAbsorbStop : decode [0x44, 0x00, 0x00, 0x00] = .instr .spzAbsorbStop [] := by decide

/-- T25: the long VMPC.INIT, 300 bytes each. -/
theorem test_decode_long :
    decode ([0x31, 0x04, 0xB1, 0x2C] ++ zeros 600) = .instr (.vmpcInit (zeros 300) (zeros 300)) [] := by
  decide +kernel

/-- T25: holds. -/
theorem test_decode_hold :
    decode [0x42, 0x00, 0xFF] = .hold ∧ decode [0x01, 0x00, 0x00, 0x03, 0x4B] = .hold := by decide

/-- T25: illegal headers, one per cause. -/
theorem test_decode_illegal :
    decode [0x42, 0x01, 0x00, 0x00] = .illegal 0x42010000 [] ∧
    decode [0x43, 0x00, 0x04, 0x00] = .illegal 0x43000400 [] ∧
    decode [0x21, 0x00, 0x04, 0x03, 0x09] = .illegal 0x21000403 [0x09] ∧
    decode [0x02, 0x10, 0x00, 0x00] = .illegal 0x02100000 [] ∧
    decode [0x03, 0x00, 0x00, 0x00] = .illegal 0x03000000 [] ∧
    decode [0x45, 0x00, 0x00, 0x00] = .illegal 0x45000000 [] ∧
    decode [0x52, 0x00, 0x00, 0x00] = .illegal 0x52000000 [] ∧
    decode [0xFF, 0xFF, 0xFF, 0xFF] = .illegal 0xFFFFFFFF [] := by decide

/-- R85: encoding gives the worked packets. -/
theorem test_encode :
    encode (.vmpcInit [0x00] [0x01, 0x02]) = [0x31, 0x00, 0x08, 0x01, 0x00, 0x01, 0x02] ∧
    encode (.spzSqueeze 16) = [0x42, 0x00, 0x00, 0x10] := by decide

/-- The table's numbering: header in bits 31:0, payload byte 0 in bits 39:32. -/
theorem test_tableWord :
    decodeTableWord 32 0x44000000 = some .spzAbsorbStop ∧
    decodeTableWord 32 0x01000002 = some (.rc4Init [0, 0]) ∧
    decodeTableWord 48 0x654B01000002 = some (.rc4Init [0x4B, 0x65]) ∧
    decodeTableWord 32 0x02000001 = none := by decide

/-- `step` runs a placed word: RC4.GEN right after reset (T7). -/
theorem test_fetchWord :
    (afterStep (State.reset.withFetchWord 32 0x02000000)).rsp = [0x04, 0x00, 0x00] ∧
    (afterStep (State.reset.withFetchWord 32 0x02000000)).cmd = [] := by decide +kernel

/-! ## RC4 -/

/-- T2: the first iteration of the schedule, by hand. -/
theorem test_rc4Init_first_iteration :
    (ksaStep [0x4B, 0x65, 0x79] (identityTable, 0) 0).2 = 0x4B ∧
    readCell (ksaStep [0x4B, 0x65, 0x79] (identityTable, 0) 0).1 0 = 0x4B := by decide +kernel

/-- T7: 257 and 0 key bytes are rejected and clear a valid bit. -/
theorem test_rc4Init_rejects :
    (after (.rc4Init (zeros 257)) ready).rsp = [0x02, 0x00, 0x00] ∧
    (after (.rc4Init []) ready).rsp = [0x01, 0x00, 0x00] ∧
    (after (.rc4Init []) ready).engstat = 0b11110 := by decide +kernel

/-- R103 by hand: `i` wraps to 0, `j = 5`, cells 0 and 5 are exchanged before the lookup at 0 + 5, so the
byte is 0 and not 5. -/
theorem test_rc4Gen_after_swap :
    (after .rc4Gen { ready with rc4 := ⟨255, 5, identityTable⟩ }).rsp = [0x00, 0x00, 0x01, 0x00] ∧
    (after .rc4Gen { ready with rc4 := ⟨255, 5, identityTable⟩ }).rc4.i = 0 := by decide +kernel

/-- E1, T1: the document's known answer: INIT with "Key", then the first byte. -/
theorem test_rc4_known_answer :
    (after .rc4Gen (after (.rc4Init [0x4B, 0x65, 0x79]) State.reset)).rsp =
      [0x00, 0x00, 0x00, 0x00, 0x00, 0x01, 0xEB] := by decide +kernel

/-! ## RC4+ -/

/-- T11: the order of the checks. -/
theorem test_rc4pInit_rejects :
    (after (.rc4pInit [] (zeros 5)) ready).rsp = [0x01, 0x00, 0x00] ∧
    (after (.rc4pInit [0] []) ready).rsp = [0x03, 0x00, 0x00] ∧
    (after (.rc4pInit (zeros 257) (zeros 257)) ready).rsp = [0x02, 0x00, 0x00] := by decide +kernel

/-- E9, R123: the zigzag. -/
theorem test_rc4pInit_zigzag :
    [0, 1, 2, 3, 4, 5, 254, 255].map zigzag = [0, 255, 1, 254, 2, 253, 127, 128] := by decide

/-- R126 by hand with the indices of T8's first row: `x1 = 25`, `x2 = 40`, cells 1 and 2A exchanged,
`t1 = 2B`, `c = 65`, `t2 = CF`, `t3 = 2B`, and (2B + CF) xor 2B = D1. -/
theorem test_rc4pGen_transform :
    (after .rc4pGen { ready with rc4p := ⟨0, 0x29, identityTable⟩ }).rsp = [0x00, 0x00, 0x01, 0xD1] := by
  decide +kernel

/-! ## RC4A -/

/-- R141: the reversal. -/
theorem test_rc4aInit_reversal :
    readCell (reverseTable identityTable) 3 = 252 ∧
    (after (.rc4aInit (zeros 257)) ready).engstat = 0b11011 := by decide +kernel

/-- R142 by hand: `i` wraps to 0, `j1 = j2 = 5`; the first byte is `S2[5]` before the swap in `S2`, the
second `S1[5]` after the swap in `S1`. -/
theorem test_rc4aGen_order :
    (after .rc4aGen { ready with rc4a := ⟨255, 5, 5, identityTable, identityTable⟩ }).rsp =
      [0x00, 0x00, 0x02, 0x05, 0x00] := by decide +kernel

/-! ## VMPC -/

/-- T14: the first iteration of pass 1, by hand. -/
theorem test_vmpcInit_first_iteration :
    (vmpcStep params [0x01, 0x23] 0 (identityTable, 0) 0).2 = 0x01 ∧
    readCell (vmpcStep params [0x01, 0x23] 0 (identityTable, 0) 0).1 1 = 0x00 := by decide +kernel

/-- T16: the order of the checks. -/
theorem test_vmpcInit_rejects :
    (after (.vmpcInit [0] [1, 2]) ready).rsp = [0x03, 0x00, 0x00] ∧
    (after (.vmpcInit (zeros 300) (zeros 8)) ready).rsp = [0x02, 0x00, 0x00] ∧
    (after (.vmpcInit [] []) ready).engstat = 0b10111 := by decide +kernel

/-- T15 (e): the step on a synthetic state. -/
theorem test_vmpcGen_synthetic :
    (after .vmpcGen { ready with vmpc := ⟨0, 5, identityTable⟩ }).rsp = [0x00, 0x00, 0x01, 0x06] ∧
    readCell (after .vmpcGen { ready with vmpc := ⟨0, 5, identityTable⟩ }).vmpc.S 0 = 5 := by
  decide +kernel

/-- T15 (e): the middle index wraps. -/
theorem test_vmpcGen_wrap :
    (after .vmpcGen { ready with vmpc := ⟨0, 0xFF, identityTable⟩ }).rsp = [0x00, 0x00, 0x01, 0x00] ∧
    readCell (after .vmpcGen { ready with vmpc := ⟨0, 0xFF, identityTable⟩ }).vmpc.S 0xFF = 0 := by
  decide +kernel

/-! ## Spritz -/

/-- T21: `key = 00`. -/
theorem test_spzInit_zero_key :
    [0, 1, 2, 3, 128, 129, 130, 131].map (readCell (after (.spzInit [0x00]) State.reset).spz.S) =
      [0x80, 0x00, 0x02, 0x03, 0x01, 0x81, 0x82, 0x83] ∧
    (after (.spzInit [0x00]) State.reset).spz.a = 2 := by decide +kernel

/-- T17: the table after the 8-byte key. -/
theorem test_spzInit_k8 :
    ((List.range 16).map fun x => readCell
      (after (.spzInit [0x01, 0x23, 0x45, 0x67, 0x89, 0xAB, 0xCD, 0xEF]) State.reset).spz.S
      (BitVec.ofNat 8 x)) =
      [0x09, 0x80, 0x83, 0xA0, 0x85, 0xC0, 0x87, 0xE0, 0x89, 0x81, 0x8B, 0x20, 0x8D, 0x40, 0x8F, 0x60] := by
  decide +kernel

/-- R193: `data = FF` with `a = 17`. -/
theorem test_spzAbsorb_FF :
    [17, 143, 18, 112].map (readCell
      (after (.spzAbsorb [0xFF]) { ready with spz := ⟨0, 0, 0, 17, 0, 0, identityTable⟩ }).spz.S) =
      [143, 17, 112, 18] ∧
    (after (.spzAbsorb [0xFF]) { ready with spz := ⟨0, 0, 0, 17, 0, 0, identityTable⟩ }).spz.a = 19 := by
  decide +kernel

/-- R188: `b = 89` with `a = 8`: cells 8 and 137, then 9 and 0. -/
theorem test_spzAbsorb_89 :
    [8, 137, 9, 0].map (readCell
      (after (.spzAbsorb [0x89]) { ready with spz := ⟨0, 0, 0, 8, 0, 0, identityTable⟩ }).spz.S) =
      [137, 8, 0, 9] := by decide +kernel

/-- R194: `a` from 16 to 17. -/
theorem test_spzAbsorbStop :
    (after .spzAbsorbStop { ready with spz := ⟨0, 0, 0, 16, 0, 0, identityTable⟩ }).spz =
      ⟨0, 0, 0, 17, 0, 0, identityTable⟩ := by decide +kernel

/-- T20, R182, R183: `update` on the identity table gives `i = 2, j = 6, k = 10` and exchanges cells 2 and 6;
by hand the lookup then gives `S[6 + S[2 + S[10]]] = 18`. -/
theorem test_spzSqueeze_one :
    (after (.spzSqueeze 1) { ready with spz := ⟨0, 2, 2, 0, 2, 0, identityTable⟩ }).rsp =
      [0x00, 0x00, 0x01, 0x12] ∧
    (after (.spzSqueeze 1) { ready with spz := ⟨0, 2, 2, 0, 2, 0, identityTable⟩ }).spz.k = 10 := by
  decide +kernel

/-- R185: `S[3] = F0`, `S[252] = 10` are exchanged, the other way round they are left. -/
theorem test_crush_pair :
    readCell (crushStep (writeCell (writeCell identityTable 3 0xF0) 252 0x10) 3) 3 = 0x10 ∧
    readCell (crushStep (writeCell (writeCell identityTable 3 0x10) 252 0xF0) 3) 3 = 0x10 := by
  decide +kernel

/-! ## Witnesses: each meets the hypotheses of the obligation it names -/

theorem witness_DecodeEncodeAgree :
    (Instr.rc4Gen).wellFormed = true ∧ (Instr.spzInit (zeros 1023)).wellFormed = true := by decide +kernel

theorem witness_DecodedPacketIsItsEncoding :
    decode [0x42, 0x00, 0x00, 0x10, 0xAA] = .instr (.spzSqueeze 16) [0xAA] := by decide

theorem witness_OpcodeRowsDisjoint :
    (⟨.rc4Init, .k, 0x01000000, 0xFFFFFC00⟩ : OpRow) ∈ opcodeTable ∧
    (⟨.rc4Init, .k, 0x01000000, 0xFFFFFC00⟩ : OpRow).selects 0x010003FF = true := by decide

/-- R77: the values where the forms meet: illegal ones, and the legal header beside each. -/
theorem witness_IllegalHeaderForms :
    lookupRow 0x51000000 = none ∧ lookupRow 0xF1000000 = none ∧ (lookupRow 0x41000000).isSome ∧
    lookupRow 0x40000000 = none ∧ lookupRow 0x45000000 = none ∧ (lookupRow 0x44000000).isSome ∧
    lookupRow 0x33000000 = none ∧ lookupRow 0x34000000 = none ∧ (lookupRow 0x43000000).isSome ∧
    lookupRow 0x01100000 = none ∧ lookupRow 0x01000400 = none ∧ (lookupRow 0x010003FF).isSome ∧
    lookupRow 0x430FFC00 = none ∧ (lookupRow 0x430003FF).isSome ∧
    lookupRow 0x32000001 = none ∧ lookupRow 0x44080000 = none ∧ (lookupRow 0x32000000).isSome ∧
    lookupRow 0x42010000 = none ∧ (lookupRow 0x4200FFFF).isSome ∧ (lookupRow 0x110FFFFF).isSome := by
  decide

theorem witness_StepRunsDecodedCommand :
    decode ({ ready with cmd := [0x02, 0x00, 0x00, 0x00, 0x07] } : State).cmd = .instr .rc4Gen [0x07] := by
  decide

theorem witness_IllegalHeaderAnswered :
    ({ ready with cmd := [0x02, 0x00, 0x00, 0x01, 0x07] } : State).cmd = 0x02 :: 0x00 :: 0x00 :: 0x01 :: [0x07] ∧
    lookupRow ((0x02 : Byte) ++ (0x00 : Byte) ++ (0x00 : Byte) ++ (0x01 : Byte)) = none := by decide

/-- A command on its way in `ready`, and its step. -/
def sent : State := { ready with cmd := [0x44, 0x00, 0x00, 0x00, 0x44, 0x00, 0x00, 0x00], rsp := [0x09] }

theorem step_sent :
    step sent = exec .spzAbsorbStop { sent with cmd := [0x44, 0x00, 0x00, 0x00] } := by
  have hd : decode sent.cmd = .instr .spzAbsorbStop [0x44, 0x00, 0x00, 0x00] := rfl
  unfold step fetch
  rw [hd]
  rfl

theorem witness_step_next : ∃ t, step sent = .next t := by
  rw [step_sent]
  exact ⟨_, rfl⟩

/-- EveryStepAppendsOneResponse, EveryStepRemovesOnePacket: a step with a next state. HostReadingUnobservable:
with a byte to take. -/
theorem witness_HostReadingUnobservable : 1 ≤ sent.rsp.length ∧ ∃ t, step sent = .next t :=
  ⟨by decide, witness_step_next⟩

theorem witness_BurstsUnobservable : ∃ t, Host.Core.run Sys2Proof.core 1 sent = .next t := by
  obtain ⟨t, h⟩ := witness_step_next
  refine ⟨t, ?_⟩
  simp only [Host.Core.run]
  have h' : Sys2Proof.core.step sent = .next t := h
  rw [h']

/-- StepHoldsOnIncompletePacket: both ways of holding, and a state that does not hold. -/
theorem witness_StepHoldsOnIncompletePacket :
    decode [0x01, 0x00, 0x00] = .hold ∧ decode [0x01, 0x00, 0x00, 0x01] = .hold ∧
    decode [0x01, 0x00, 0x00, 0x00] ≠ .hold := by decide

theorem witness_ResetEnginesUnusable : Instr.isInit (.spzSqueeze 1) = false := rfl

/-- Two states that differ in what an engine that is not valid holds, and in nothing else. -/
theorem witness_UnspecifiedContentsUnobservable :
    Indistinguishable State.reset { State.reset with vmpc := ⟨1, 2, identityTable⟩ } ∧
    State.reset ≠ { State.reset with vmpc := ⟨1, 2, identityTable⟩ } := by
  refine ⟨⟨rfl, rfl, rfl, fun e he => by simp at he⟩, fun h => ?_⟩
  have := congrArg (fun s : State => s.vmpc.i) h
  revert this
  decide

theorem witness_KeyOnlyInitRejections :
    (([] : List Byte).length = 0 ∧ (0x01 : Byte) = 0x01) ∧
    (256 < (zeros 257).length ∧ (0x02 : Byte) = 0x02) := by decide +kernel

theorem witness_KeyIvInitRejections :
    (([] : List Byte).length = 0 ∧ (0x01 : Byte) = 0x01) ∧
    (256 < (zeros 257).length ∧ (0x02 : Byte) = 0x02) ∧
    (1 ≤ (zeros 256).length ∧ (zeros 256).length ≤ 256 ∧ (zeros 255).length ≠ (zeros 256).length ∧
      (0x03 : Byte) = 0x03) := by decide +kernel

theorem witness_UseOfInvalidEngineRejected :
    State.reset.engstat.getLsbD 0 = false ∧ State.reset.engstat.getLsbD 1 = false ∧
    State.reset.engstat.getLsbD 2 = false ∧ State.reset.engstat.getLsbD 3 = false ∧
    State.reset.engstat.getLsbD 4 = false := by decide

/-- Both clauses: an INIT of the engine, and a command that is none. -/
theorem witness_ValidBitsFollowInits :
    (∃ t, exec (.rc4Init []) ready = .next t) ∧ Instr.isInit (.rc4Init []) = true ∧
    Instr.eng (.rc4Init []) = .rc4 ∧
    (∃ t, exec .rc4Gen ready = .next t) ∧ ¬(Instr.isInit .rc4Gen = true ∧ Instr.eng .rc4Gen = .rc4) :=
  ⟨⟨_, rfl⟩, rfl, rfl, ⟨_, rfl⟩, by decide⟩

theorem witness_InitIgnoresOldState :
    Instr.isInit (.spzInit [1]) = true ∧
    (∃ t t', exec (.spzInit [1]) State.reset = .next t ∧ exec (.spzInit [1]) ready = .next t' ∧
      valid (Instr.eng (.spzInit [1])) t = true) :=
  ⟨rfl, _, _, rfl, rfl, by
    rw [keyReject_of_accepted (by decide) (by decide), initEngine_accepted]
    exact valid_setValid_self _ _ _⟩

/-- Rc4InitCompletes, Rc4aInitCompletes, Rc4aFirstTableIsRc4s, SpzInitCompletes, SpzInitScalars: both
boundaries of the key length. -/
theorem witness_key_lengths :
    (1 ≤ (zeros 1).length ∧ (zeros 1).length ≤ 256) ∧ (1 ≤ (zeros 256).length ∧ (zeros 256).length ≤ 256) ∧
    (zeros 64).length ≤ 64 := by decide +kernel

/-- Rc4pInitCompletes, VmpcInitCompletes: the boundaries, the IV as long as the key. -/
theorem witness_key_iv_lengths :
    (1 ≤ (zeros 1).length ∧ (zeros 1).length ≤ 256 ∧ (zeros 1).length = (zeros 1).length) ∧
    (1 ≤ (zeros 256).length ∧ (zeros 256).length ≤ 256 ∧ (zeros 256).length = (zeros 256).length) := by
  decide +kernel

/-- The GEN, ABSORB, ABSORB_STOP and SQUEEZE statements, GensCountInIndex: every engine can be valid. -/
theorem witness_engines_valid :
    ready.engstat.getLsbD 0 = true ∧ ready.engstat.getLsbD 1 = true ∧ ready.engstat.getLsbD 2 = true ∧
    ready.engstat.getLsbD 3 = true ∧ ready.engstat.getLsbD 4 = true := by decide

/-- SpzAbsorbStopCompletes: both sides of the shuffle condition. -/
theorem witness_SpzAbsorbStopCompletes : 128 ≤ (128 : Byte).toNat ∧ (127 : Byte).toNat < 128 := by decide

theorem witness_Rc4pStatesFollowRc4 :
    ready.engstat.getLsbD 0 = true ∧ ready.engstat.getLsbD 1 = true ∧ ready.rc4p = ready.rc4 :=
  ⟨by decide, by decide, rfl⟩

/-- Two IVs of 129 bytes that differ in the last byte alone. -/
theorem witness_Rc4pInitIgnoresLateIvBytes :
    (zeros 128 ++ [1] : List Byte).length = (zeros 128 ++ [2] : List Byte).length ∧
    (zeros 128 ++ [1] : List Byte).length = (zeros 129).length ∧
    (∀ n, n < 128 → (zeros 128 ++ [1] : List Byte)[n]? = (zeros 128 ++ [2] : List Byte)[n]?) ∧
    (zeros 128 ++ [1] : List Byte) ≠ (zeros 128 ++ [2] : List Byte) := by decide +kernel

theorem witness_VmpcKeyIndexModesAgree : ([1, 2] : List Byte).length ∣ 256 := by decide

theorem witness_SqueezeChunking :
    (5 : BitVec 16).toNat + (11 : BitVec 16).toNat = (16 : BitVec 16).toNat ∧
    (0 : BitVec 16).toNat + (65535 : BitVec 16).toNat = (65535 : BitVec 16).toNat ∧
    ready.engstat.getLsbD 4 = true := by decide

/-- AbsorbConcatenates: the first clause needs a valid engine, the second these lengths. -/
theorem witness_AbsorbConcatenates :
    ready.engstat.getLsbD 4 = true ∧ 1 ≤ (zeros 8).length ∧ (zeros 8 ++ zeros 248).length ≤ 256 := by
  decide +kernel

theorem witness_StopThenSqueezeIsSqueeze :
    ({ ready with spz := ⟨0, 0, 0, 127, 0, 0, identityTable⟩ } : State).engstat.getLsbD 4 = true ∧
    1 ≤ (1 : Byte).toNat ∧ (127 : Byte).toNat ≤ 127 := by decide

theorem witness_CommandLeavesOtherEngines :
    (∃ t, exec .rc4Gen ready = .next t) ∧ Eng.spz ≠ Instr.eng .rc4Gen := ⟨⟨_, rfl⟩, by decide⟩

theorem witness_CommandsToDifferentEnginesCommute : Instr.eng .rc4Gen ≠ Instr.eng .vmpcGen := by decide

/-- `sent` meets the four invariants with every engine valid, and steps. -/
theorem witness_invariants :
    PermInvariant sent ∧ SpzCounterInvariant sent ∧ SpzEvenInvariant sent ∧ VmpcIndexInvariant sent ∧
    valid .spz sent = true ∧ ∃ t, step sent = .next t :=
  ⟨⟨fun _ => isPermutation_identityTable, fun _ => isPermutation_identityTable,
      fun _ => ⟨isPermutation_identityTable, isPermutation_identityTable⟩,
      fun _ => isPermutation_identityTable, fun _ => isPermutation_identityTable⟩,
    fun _ => by decide, fun _ => by decide, fun _ => rfl, by decide, witness_step_next⟩

theorem witness_PermutationsForEveryParameter : IsPermutation ready.spz.S := isPermutation_identityTable

end Sys2Proof.Tests
end

