-- ==== Sys2Proof/Proofs/Scope.lean ====
section
/-! PROOFS. The statements of 00_scope.md: `exec` is total, an INIT does not depend on what its engine held,
and the open parameters of R8 cannot break a permutation. -/

namespace Sys2Proof.Machine

/-- The next state of a command is its effect followed by its response. -/
theorem Effect.next_eq {i : Instr} {f : State → State} {rsp : State → Rsp} (h : Effect i f rsp)
    {s t : State} (ht : exec i s = .next t) : t = respond (rsp s) (f s) := by
  rw [h.exec_eq s] at ht
  injection ht with ht
  exact ht.symm

/-- Settles O9: every command has an effect, and its next state is that effect with the response. -/
theorem everyCommandHasNextState : Obligations.EveryCommandHasNextState := by
  intro i s
  obtain ⟨f, rsp, h⟩ := exec_effect i
  exact ⟨_, h.exec_eq s⟩

/-- Settles O20: the effect of an INIT depends on its operands alone, and its response touches neither the
valid bits nor the records. -/
theorem initIgnoresOldState : Obligations.InitIgnoresOldState := by
  intro i s s' t t' hinit ht ht' hvalid
  obtain ⟨f, rsp, h⟩ := exec_effect i
  obtain rfl := h.next_eq ht
  obtain rfl := h.next_eq ht'
  obtain ⟨-, hbit, hrecord⟩ := h.init_indep hinit s s'
  rw [valid_respond] at hvalid
  constructor
  · simpa using hrecord hvalid
  · rw [valid_respond, ← hbit, hvalid]

/-- R160: the schedule starts from the identity and every pass exchanges cells. -/
theorem vmpcSchedule_perm (cfg : Config) (key iv : List Byte) :
    IsPermutation (vmpcSchedule cfg key iv).S :=
  vmpcFold_perm cfg iv _ (vmpcFold_perm cfg key _ isPermutation_identityTable)

/-- Settles O33: neither the step, the index nor the stop condition enters the argument that only exchanges
and shuffles write a table. -/
theorem permutationsForEveryParameter : Obligations.PermutationsForEveryParameter := by
  intro cfg key iv r
  exact ⟨vmpcSchedule_perm cfg key iv, spzAbsorbStop_perm cfg r⟩

end Sys2Proof.Machine
end

