-- ==== Sys2Proof/Proofs/State.lean ====
section
/-! PROOFS. The statements of 10_state.md. A command reads of the state only what concerns its own engine:
the valid bit, and the record when that bit is 1. From this one fact (`Effect.indep`) follow the statements
on bursts, on the host's reading and on unspecified contents; the frame (`Effect.sameEngine_other`) gives
isolation and commutation; and an invariant of one engine needs a look at that engine's commands only
(`step_keeps_engine`). -/

namespace Sys2Proof.Machine

/-! ## One step, by what is at the head of CMD -/

theorem step_of_hold {s : State} (hd : decode s.cmd = .hold) : step s = .fault .hold := by
  delta step fetch
  rw [hd]

theorem step_of_illegal {s : State} {h : Word32} {rest : List Byte} (hd : decode s.cmd = .illegal h rest) :
    step s = .next (respond ⟨.errIllegal, []⟩ (consume rest s)) := by
  delta step fetch
  rw [hd]
  rfl

theorem step_of_instr {s : State} {i : Instr} {rest : List Byte} (hd : decode s.cmd = .instr i rest) :
    step s = exec i (consume rest s) := by
  delta step fetch
  rw [hd]

/-- A step with a next state consumed an illegal header or executed a whole packet's command. -/
theorem step_cases {s t : State} (ht : step s = .next t) :
    (∃ h rest, decode s.cmd = .illegal h rest ∧ t = respond ⟨.errIllegal, []⟩ (consume rest s)) ∨
    (∃ i rest, decode s.cmd = .instr i rest ∧ exec i (consume rest s) = .next t) := by
  cases hd : decode s.cmd with
  | hold => rw [step_of_hold hd] at ht; cases ht
  | illegal h rest =>
    rw [step_of_illegal hd] at ht
    injection ht with ht
    exact .inl ⟨h, rest, rfl, ht.symm⟩
  | instr i rest => exact .inr ⟨i, rest, rfl, (step_of_instr hd).symm.trans ht⟩

/-- R80: bytes appended after a whole packet stay after it. -/
theorem decode_append_of_instr {bs : List Byte} {i : Instr} {rest : List Byte}
    (hd : decode bs = .instr i rest) (cs : List Byte) : decode (bs ++ cs) = .instr i (rest ++ cs) := by
  obtain ⟨h, r, payload, hrow, rfl, hlen, rfl⟩ := decode_eq_instr hd
  obtain ⟨hmem, hsel⟩ := lookupRow_some hrow
  rw [List.append_assoc, List.append_assoc, decode_headerBytes]
  exact decodePacket_of_selects hmem hsel hlen

/-- R78, R80: bytes appended after an illegal header stay after it. -/
theorem decode_append_of_illegal {bs : List Byte} {h : Word32} {rest : List Byte}
    (hd : decode bs = .illegal h rest) (cs : List Byte) :
    decode (bs ++ cs) = .illegal h (rest ++ cs) := by
  obtain ⟨hrow, rfl⟩ := decode_eq_illegal hd
  rw [List.append_assoc, decode_headerBytes, decodePacket, hrow]

/-! ## One engine in two states -/

/-- The two states hold the same record and the same valid bit for engine `e`. -/
def SameEngine (e : Eng) (s t : State) : Prop := SameRecord e s t ∧ valid e s = valid e t

theorem SameEngine.symm {e : Eng} {s t : State} (h : SameEngine e s t) : SameEngine e t s :=
  ⟨sameRecord_symm h.1, h.2.symm⟩

theorem SameEngine.trans {e : Eng} {s t u : State} (h : SameEngine e s t) (h' : SameEngine e t u) :
    SameEngine e s u :=
  ⟨sameRecord_trans h.1 h'.1, h.2.trans h'.2⟩

/-- The streams belong to no engine. -/
theorem sameEngine_withStreams (e : Eng) (s : State) (cmd rsp : List Byte) :
    SameEngine e s { s with cmd := cmd, rsp := rsp } := by
  cases e <;> exact ⟨rfl, rfl⟩

theorem sameEngine_respond (e : Eng) (r : Rsp) (s : State) : SameEngine e s (respond r s) :=
  sameEngine_withStreams e s _ _

theorem sameEngine_consume (e : Eng) (rest : List Byte) (s : State) : SameEngine e s (consume rest s) :=
  sameEngine_withStreams e s _ _

theorem sameEngine_hostSend (e : Eng) (bs : List Byte) (s : State) : SameEngine e s (hostSend bs s) :=
  sameEngine_withStreams e s _ _

theorem sameEngine_hostTake (e : Eng) (n : Nat) (s : State) : SameEngine e s (hostTake n s) :=
  sameEngine_withStreams e s _ _

/-- The two states agree on the valid bit of engine `e`, and on its record when the bit is 1. -/
def SameIfValid (e : Eng) (s t : State) : Prop :=
  valid e s = valid e t ∧ (valid e s = true → SameRecord e s t)

/-- States alike in engine `e` can stand for each other in `SameIfValid`. -/
theorem SameIfValid.congr {e : Eng} {s t s' t' : State} (h : SameIfValid e s t)
    (hs : SameEngine e s s') (ht : SameEngine e t t') : SameIfValid e s' t' := by
  obtain ⟨hval, hrec⟩ := h
  obtain ⟨hsr, hsv⟩ := hs
  obtain ⟨htr, htv⟩ := ht
  exact ⟨hsv.symm.trans (hval.trans htv),
    fun hv => sameRecord_trans (sameRecord_symm hsr) (sameRecord_trans (hrec (hsv.trans hv)) htr)⟩

theorem indistinguishable_iff (s t : State) :
    Indistinguishable s t ↔ s.cmd = t.cmd ∧ s.rsp = t.rsp ∧ ∀ e, SameIfValid e s t := by
  constructor
  · rintro ⟨hstat, hcmd, hrsp, hrec⟩
    exact ⟨hcmd, hrsp, fun e => ⟨valid_congr hstat e, hrec e⟩⟩
  · rintro ⟨hcmd, hrsp, h⟩
    exact ⟨engstat_ext fun e => (h e).1, hcmd, hrsp, fun e => (h e).2⟩

/-! ## What a command reads and writes -/

section
variable {i : Instr} {f : State → State} {rsp : State → Rsp}

/-- R32: a command leaves every engine but its own. -/
theorem Effect.sameEngine_other (h : Effect i f rsp) {e : Eng} (he : e ≠ i.eng) (s : State) :
    SameEngine e s (f s) := by
  obtain ⟨hrec, hval⟩ := h.other s e he
  exact ⟨hrec, hval.symm⟩

/-- The valid bit a command leaves its engine does not depend on any other bit or record. -/
theorem Effect.valid_own (h : Effect i f rsp) {s t : State} (hv : valid i.eng s = valid i.eng t) :
    valid i.eng (f s) = valid i.eng (f t) := by
  cases hi : i.isInit with
  | true => exact (h.init_indep hi s t).2.1
  | false => rw [h.use_valid hi, h.use_valid hi, hv]

/-- A command answers and changes its engine by that engine alone. -/
theorem Effect.sameEngine_own (h : Effect i f rsp) {s t : State} (hst : SameEngine i.eng s t) :
    rsp s = rsp t ∧ SameEngine i.eng (f s) (f t) := by
  obtain ⟨hrec, hval⟩ := hst
  obtain ⟨hrsp, hrec'⟩ := h.own s t hval hrec
  exact ⟨hrsp, hrec', h.valid_own hval⟩

/-- On states alike in every engine a command gives the same response and states alike in every engine. -/
theorem Effect.sameEngine_all (h : Effect i f rsp) {s t : State} (hst : ∀ e, SameEngine e s t) :
    rsp s = rsp t ∧ ∀ e, SameEngine e (f s) (f t) := by
  obtain ⟨hrsp, hown⟩ := h.sameEngine_own (hst i.eng)
  refine ⟨hrsp, fun e => ?_⟩
  by_cases he : e = i.eng
  · exact he ▸ hown
  · exact (h.sameEngine_other he s).symm.trans ((hst e).trans (h.sameEngine_other he t))

/-- R33, U2: what an engine holds while it is not valid reaches neither the response nor a valid engine. -/
theorem Effect.indep (h : Effect i f rsp) {s t : State} (hst : ∀ e, SameIfValid e s t) :
    rsp s = rsp t ∧ ∀ e, SameIfValid e (f s) (f t) := by
  obtain ⟨hval, hrec⟩ := hst i.eng
  have hown : rsp s = rsp t ∧ (valid i.eng (f s) = true → SameRecord i.eng (f s) (f t)) := by
    cases hi : i.isInit with
    | true =>
      obtain ⟨hrsp, -, hrec'⟩ := h.init_indep hi s t
      exact ⟨hrsp, hrec'⟩
    | false =>
      rw [h.use_valid hi]
      exact h.use_indep hi s t hval hrec
  refine ⟨hown.1, fun e => ?_⟩
  by_cases he : e = i.eng
  · subst he
    exact ⟨h.valid_own hval, hown.2⟩
  · exact (hst e).congr (h.sameEngine_other he s) (h.sameEngine_other he t)

/-- A command executed where all engines are as in `s` leaves the engines as it does from `s`, with the same
response. -/
theorem Effect.exec_eq_of_sameEngine (h : Effect i f rsp) {s s' t' : State}
    (hs : ∀ e, SameEngine e s s') (ht : ∀ e, SameEngine e (f s) t') (hcmd : t'.cmd = s'.cmd)
    (hrsp : t'.rsp = s'.rsp ++ encodeRsp (rsp s)) : exec i s' = .next t' := by
  obtain ⟨hanswer, heng⟩ := h.sameEngine_all hs
  rw [h.exec_eq, ← hanswer]
  refine congrArg _ (state_ext (fun e => ?_) ?_ ?_)
  · exact (sameEngine_respond e _ _).symm.trans ((heng e).symm.trans (ht e))
  · rw [respond_cmd, h.cmd_eq, hcmd]
  · rw [respond_rsp, h.rsp_eq, hrsp]

end

/-! ## The host's moves -/

/-- No command reads CMD, so bytes appended to it pass through. -/
theorem exec_hostSend {i : Instr} {s t : State} (ht : exec i s = .next t) (bs : List Byte) :
    exec i (hostSend bs s) = .next (hostSend bs t) := by
  obtain ⟨f, rsp, h⟩ := exec_effect i
  obtain rfl := h.next_eq ht
  refine h.exec_eq_of_sameEngine (fun e => sameEngine_hostSend e bs s)
    (fun e => (sameEngine_respond e _ _).trans (sameEngine_hostSend e bs _)) ?_ ?_
  · simp [h.cmd_eq]
  · simp [h.rsp_eq]

/-- No command reads RSP, so bytes removed from its head are the old ones. -/
theorem exec_hostTake {i : Instr} {s t : State} (ht : exec i s = .next t) {n : Nat}
    (hn : n ≤ s.rsp.length) : exec i (hostTake n s) = .next (hostTake n t) := by
  obtain ⟨f, rsp, h⟩ := exec_effect i
  obtain rfl := h.next_eq ht
  refine h.exec_eq_of_sameEngine (fun e => sameEngine_hostTake e n s)
    (fun e => (sameEngine_respond e _ _).trans (sameEngine_hostTake e n _)) ?_ ?_
  · simp [h.cmd_eq]
  · simp [h.rsp_eq, List.drop_append_of_le_length hn]

theorem step_hostSend {s t : State} (ht : step s = .next t) (bs : List Byte) :
    step (hostSend bs s) = .next (hostSend bs t) := by
  obtain ⟨h, rest, hd, rfl⟩ | ⟨i, rest, hd, hexec⟩ := step_cases ht
  · exact step_of_illegal (s := hostSend bs s) (decode_append_of_illegal hd bs)
  · exact (step_of_instr (s := hostSend bs s) (decode_append_of_instr hd bs)).trans
      (exec_hostSend hexec bs)

theorem respond_hostTake (r : Rsp) {s : State} {n : Nat} (hn : n ≤ s.rsp.length) :
    respond r (hostTake n s) = hostTake n (respond r s) :=
  congrArg (fun l => { s with rsp := l }) (List.drop_append_of_le_length hn).symm

theorem step_hostTake {s t : State} (ht : step s = .next t) {n : Nat} (hn : n ≤ s.rsp.length) :
    step (hostTake n s) = .next (hostTake n t) := by
  obtain ⟨h, rest, hd, rfl⟩ | ⟨i, rest, hd, hexec⟩ := step_cases ht
  · exact (step_of_illegal (s := hostTake n s) hd).trans
      (congrArg _ (respond_hostTake _ (s := consume rest s) hn))
  · exact (step_of_instr (s := hostTake n s) hd).trans (exec_hostTake hexec hn)

/-- A run of `k + 1` steps that ends in a next state is a step to a next state and a run of `k` steps. -/
theorem run_succ_eq_next_iff (k : Nat) (s t : State) :
    Host.Core.run Sys2Proof.core (k + 1) s = .next t ↔
      ∃ u, step s = .next u ∧ Host.Core.run Sys2Proof.core k u = .next t := by
  have hstep : Sys2Proof.core.step s = step s := rfl
  simp only [Host.Core.run, hstep]
  cases step s <;> simp

/-- Settles O12: by induction on the number of steps, each of which commutes with the host's sending. -/
theorem burstsUnobservable : Obligations.BurstsUnobservable := by
  intro k
  induction k with
  | zero =>
    intro s t bs hrun
    have hst : Host.Outcome.next s = .next t := hrun
    injection hst with hst
    rw [hst]
    rfl
  | succ k ih =>
    intro s t bs hrun
    rw [run_succ_eq_next_iff] at hrun ⊢
    obtain ⟨u, hu, hrun⟩ := hrun
    exact ⟨hostSend bs u, step_hostSend hu bs, ih u t bs hrun⟩

/-- Settles O13: neither the decoder nor a command reads RSP. -/
theorem hostReadingUnobservable : Obligations.HostReadingUnobservable :=
  fun _ _ _ hn ht => step_hostTake ht hn

/-! ## Reset and unspecified contents -/

theorem exec_use_of_invalid {i : Instr} (hi : i.isInit = false) {s : State}
    (hv : valid i.eng s = false) : exec i s = .next (raiseReject none .errNotInit s) := by
  obtain ⟨check, build, hinit, -⟩ | ⟨run, -, hexec, -⟩ := exec_form i
  · rw [hi] at hinit; cases hinit
  · rw [hexec, useEngine_invalid hv]

/-- Settles O14: every engine is invalid after reset, and a use of such an engine is rejected. -/
theorem resetEnginesUnusable : Obligations.ResetEnginesUnusable := by
  refine ⟨rfl, rfl, rfl, fun i hi => ?_⟩
  rw [exec_use_of_invalid hi (valid_reset i.eng), raiseReject_eq]
  rfl

theorem exec_indistinguishable (i : Instr) {s t : State} (h : Indistinguishable s t) :
    ∃ s' t', exec i s = .next s' ∧ exec i t = .next t' ∧ Indistinguishable s' t' := by
  obtain ⟨f, rsp, heff⟩ := exec_effect i
  obtain ⟨hcmd, hrsp, heng⟩ := (indistinguishable_iff s t).1 h
  obtain ⟨hanswer, heng'⟩ := heff.indep heng
  refine ⟨_, _, heff.exec_eq s, heff.exec_eq t, (indistinguishable_iff _ _).2 ⟨?_, ?_, fun e => ?_⟩⟩
  · simp [heff.cmd_eq, hcmd]
  · simp [heff.rsp_eq, hrsp, hanswer]
  · exact (heng' e).congr (sameEngine_respond e _ _) (sameEngine_respond e _ _)

theorem respond_indistinguishable (r : Rsp) {s t : State} (h : Indistinguishable s t) :
    Indistinguishable (respond r s) (respond r t) := by
  obtain ⟨hcmd, hrsp, heng⟩ := (indistinguishable_iff s t).1 h
  exact (indistinguishable_iff _ _).2 ⟨hcmd, congrArg (· ++ encodeRsp r) hrsp,
    fun e => (heng e).congr (sameEngine_respond e r s) (sameEngine_respond e r t)⟩

theorem consume_indistinguishable (rest : List Byte) {s t : State} (h : Indistinguishable s t) :
    Indistinguishable (consume rest s) (consume rest t) := by
  obtain ⟨-, hrsp, heng⟩ := (indistinguishable_iff s t).1 h
  exact (indistinguishable_iff _ _).2 ⟨rfl, hrsp,
    fun e => (heng e).congr (sameEngine_consume e rest s) (sameEngine_consume e rest t)⟩

/-- Settles O15: both states have the same packet at the head of CMD, and its command cannot tell them
apart. -/
theorem unspecifiedContentsUnobservable : Obligations.UnspecifiedContentsUnobservable := by
  intro s t h
  have hcmd : t.cmd = s.cmd := h.2.1.symm
  cases hd : decode s.cmd with
  | hold => exact .inl ⟨step_of_hold hd, step_of_hold (hcmd ▸ hd)⟩
  | illegal w rest =>
    exact .inr ⟨_, _, step_of_illegal hd, step_of_illegal (hcmd ▸ hd),
      respond_indistinguishable _ (consume_indistinguishable rest h)⟩
  | instr i rest =>
    rw [step_of_instr hd, step_of_instr (hcmd ▸ hd)]
    exact .inr (exec_indistinguishable i (consume_indistinguishable rest h))

/-! ## Valid bits -/

/-- Settles O19: the effect of a command fixes its own valid bit and leaves the others. -/
theorem validBitsFollowInits : Obligations.ValidBitsFollowInits := by
  intro i s t e ht
  obtain ⟨f, rsp, h⟩ := exec_effect i
  obtain rfl := h.next_eq ht
  rw [valid_respond]
  constructor
  · rintro ⟨hinit, rfl⟩
    obtain ⟨hdata, hvalid⟩ := h.init_valid hinit s
    refine ⟨statusCode (rsp s).status, ?_, by rw [hvalid, statusCode_eq_zero]⟩
    rw [respond_rsp, h.rsp_eq, ← encodeRsp_empty, ← hdata]
  · intro hne
    by_cases he : e = i.eng
    · subst he
      exact h.use_valid (by simpa using hne) s
    · exact (h.sameEngine_other he s).2.symm

/-! ## Isolation -/

/-- Settles O46: the frame of a command's effect, and its response at the end of RSP. -/
theorem commandLeavesOtherEngines : Obligations.CommandLeavesOtherEngines := by
  intro i s t ht
  obtain ⟨f, rsp, h⟩ := exec_effect i
  obtain rfl := h.next_eq ht
  refine ⟨h.cmd_eq s, ⟨encodeRsp (rsp s), by rw [respond_rsp, h.rsp_eq]⟩, fun e he => ?_⟩
  obtain ⟨hrec, hval⟩ := (h.sameEngine_other he s).trans (sameEngine_respond e (rsp s) (f s))
  exact ⟨hrec, hval.symm⟩

/-- A command answers and leaves its own engine alike before and after a command to another engine. -/
theorem Effect.own_engine_commutes {i i' : Instr} {f f' : State → State} {rsp rsp' : State → Rsp}
    (h : Effect i f rsp) (h' : Effect i' f' rsp') (hne : i.eng ≠ i'.eng) (s : State) :
    rsp (respond (rsp' s) (f' s)) = rsp s ∧
      SameEngine i.eng (f' (respond (rsp s) (f s))) (f (respond (rsp' s) (f' s))) := by
  obtain ⟨hrsp, hsecond⟩ :=
    h.sameEngine_own ((h'.sameEngine_other hne s).trans (sameEngine_respond _ (rsp' s) _))
  have hfirst := (sameEngine_respond i.eng (rsp s) (f s)).trans (h'.sameEngine_other hne _)
  exact ⟨hrsp.symm, hfirst.symm.trans hsecond⟩

/-- Settles O47: each command finds and leaves its own engine as if it ran alone. -/
theorem commandsToDifferentEnginesCommute : Obligations.CommandsToDifferentEnginesCommute := by
  intro i i' s hne
  obtain ⟨f, rsp, h⟩ := exec_effect i
  obtain ⟨f', rsp', h'⟩ := exec_effect i'
  obtain ⟨hrsp, hown⟩ := h.own_engine_commutes h' hne s
  obtain ⟨hrsp', hown'⟩ := h'.own_engine_commutes h hne.symm s
  have heng : ∀ e, SameEngine e (f' (respond (rsp s) (f s))) (f (respond (rsp' s) (f' s))) := by
    intro e
    by_cases he : e = i.eng
    · exact he ▸ hown
    by_cases he' : e = i'.eng
    · exact he' ▸ hown'.symm
    have hleft := ((h.sameEngine_other he s).trans (sameEngine_respond e (rsp s) _)).trans
      (h'.sameEngine_other he' _)
    have hright := ((h'.sameEngine_other he' s).trans (sameEngine_respond e (rsp' s) _)).trans
      (h.sameEngine_other he _)
    exact hleft.symm.trans hright
  refine ⟨_, _, _, _, encodeRsp (rsp s), encodeRsp (rsp' s), h.exec_eq s, h'.exec_eq _, h'.exec_eq s,
    h.exec_eq _, ?_, ?_, ?_, ?_, state_ext (fun e => ?_) ?_ rfl⟩
  · simp [h.rsp_eq]
  · simp [h.rsp_eq, h'.rsp_eq, hrsp']
  · simp [h'.rsp_eq]
  · simp [h.rsp_eq, h'.rsp_eq, hrsp]
  · exact (sameEngine_withStreams e _ _ _).symm.trans ((heng e).trans (sameEngine_withStreams e _ _ _))
  · simp [h.cmd_eq, h'.cmd_eq]

/-! ## Invariants of one engine -/

/-- A property of an engine's record. -/
def IsRecordProperty (e : Eng) (P : State → Prop) : Prop := ∀ s t, SameRecord e s t → P s → P t

/-- Such a property of a valid engine passes to every state alike in that engine. -/
theorem IsRecordProperty.of_sameEngine {e : Eng} {P : State → Prop} (hP : IsRecordProperty e P)
    {s t : State} (hst : SameEngine e s t) (hs : valid e s = true → P s) : valid e t = true → P t :=
  fun hv => hP s t hst.1 (hs (hst.2.trans hv))

theorem valid_raiseReject_some (e : Eng) (code : Status) (s : State) :
    valid e (raiseReject (some e) code s) = false :=
  valid_setValid_self e false s

theorem valid_raiseReject_none (e : Eng) (code : Status) (s : State) :
    valid e (raiseReject none code s) = valid e s := rfl

/-- An INIT that leaves its engine valid leaves the record it built. -/
theorem initEngine_establishes {e : Eng} {P : State → Prop} (hP : IsRecordProperty e P)
    {check : Option Status} {build : State → State} {s : State} (hbuild : P (build s))
    (hv : valid e (initEngine e check build s) = true) : P (initEngine e check build s) := by
  cases check with
  | none =>
    rw [initEngine_accepted]
    exact hP _ _ (by simpa using sameRecord_refl e (build s)) hbuild
  | some code =>
    rw [initEngine_rejected, valid_raiseReject_some] at hv
    cases hv

/-- A use of a valid engine leaves the record its run leaves. -/
theorem useEngine_keeps {e : Eng} {P : State → Prop} (hP : IsRecordProperty e P)
    {run : State → State × List Byte} {s : State} (hrun : P s → P (run s).1)
    (hs : valid e s = true → P s) (hv : valid e (useEngine e run s) = true) :
    P (useEngine e run s) := by
  cases hvs : valid e s with
  | false =>
    rw [useEngine_invalid hvs, valid_raiseReject_none, hvs] at hv
    cases hv
  | true =>
    rw [useEngine_valid hvs]
    exact hP _ _ (sameEngine_respond e _ _).1 (hrun (hs hvs))

/-- A property of engine `e`'s record while it is valid is kept by every step when the commands to `e`
keep it. -/
theorem step_keeps_engine {e : Eng} {P : State → Prop} (hP : IsRecordProperty e P)
    (hown : ∀ i s t, i.eng = e → exec i s = .next t → (valid e s = true → P s) →
      valid e t = true → P t)
    {s t : State} (hs : valid e s = true → P s) (ht : step s = .next t) : valid e t = true → P t := by
  obtain ⟨w, rest, -, rfl⟩ | ⟨i, rest, -, hexec⟩ := step_cases ht
  · exact hP.of_sameEngine ((sameEngine_consume e rest s).trans (sameEngine_respond e _ _)) hs
  · have hconsumed := hP.of_sameEngine (sameEngine_consume e rest s) hs
    by_cases he : e = i.eng
    · exact hown i _ t he.symm hexec hconsumed
    · obtain ⟨f, rsp, h⟩ := exec_effect i
      obtain rfl := h.next_eq hexec
      exact hP.of_sameEngine ((h.sameEngine_other he _).trans (sameEngine_respond e _ _)) hconsumed

/-- R27: the tables of engine `e` are permutations. -/
def TablesPermuted : Eng → State → Prop
  | .rc4, s => IsPermutation s.rc4.S
  | .rc4p, s => IsPermutation s.rc4p.S
  | .rc4a, s => IsPermutation s.rc4a.S1 ∧ IsPermutation s.rc4a.S2
  | .vmpc, s => IsPermutation s.vmpc.S
  | .spz, s => IsPermutation s.spz.S

theorem permInvariant_iff (s : State) : PermInvariant s ↔ ∀ e, valid e s = true → TablesPermuted e s :=
  ⟨fun ⟨h0, h1, h2, h3, h4⟩ e => by cases e <;> assumption,
    fun h => ⟨h .rc4, h .rc4p, h .rc4a, h .vmpc, h .spz⟩⟩

theorem tablesPermuted_isRecordProperty (e : Eng) : IsRecordProperty e (TablesPermuted e) := by
  intro s t hrec hs
  cases e <;> (simp only [SameRecord] at hrec; simpa only [TablesPermuted, ← hrec] using hs)

/-- R27: every schedule builds permutations, and every other command only exchanges cells. -/
theorem exec_keeps_tablesPermuted {i : Instr} {s t : State} (ht : exec i s = .next t)
    (hs : valid i.eng s = true → TablesPermuted i.eng s) :
    valid i.eng t = true → TablesPermuted i.eng t := by
  have hP := tablesPermuted_isRecordProperty i.eng
  cases i <;> injection ht with ht <;> subst ht
  case rc4Init key => exact initEngine_establishes hP (rc4Schedule_perm key)
  case rc4pInit key iv => exact initEngine_establishes hP (rc4pSchedule_perm key iv)
  case rc4aInit key => exact initEngine_establishes hP (rc4aSchedule_perm key)
  case vmpcInit key iv => exact initEngine_establishes hP (vmpcSchedule_perm params key iv)
  case spzInit key =>
    exact initEngine_establishes hP (spzAbsorbAll_perm spzInitial key isPermutation_identityTable)
  case rc4Gen => exact useEngine_keeps hP (advance_perm s.rc4) hs
  case rc4pGen => exact useEngine_keeps hP (advance_perm s.rc4p) hs
  case rc4aGen => exact useEngine_keeps hP (rc4aGenerate_perm s.rc4a) hs
  case vmpcGen => exact useEngine_keeps hP (vmpcGenerate_perm s.vmpc) hs
  case spzSqueeze count => exact useEngine_keeps hP (spzSqueeze_perm count.toNat s.spz) hs
  case spzAbsorb data => exact useEngine_keeps hP (spzAbsorbAll_perm s.spz data) hs
  case spzAbsorbStop => exact useEngine_keeps hP (spzAbsorbStop_perm params s.spz) hs

/-- Settles O48: engine by engine, the commands to an engine keep its tables permutations. -/
theorem stepKeepsPermutations : Obligations.StepKeepsPermutations := by
  intro s t hs ht
  rw [permInvariant_iff] at hs ⊢
  intro e
  refine step_keeps_engine (tablesPermuted_isRecordProperty e) ?_ (hs e) ht
  rintro i u v rfl hexec hu
  exact exec_keeps_tablesPermuted hexec hu

/-! ## The Spritz absorb counter -/

/-- R35: the absorb counter is at most 128. -/
def SpzCounterBounded (s : State) : Prop := s.spz.a.toNat ≤ 128

theorem spzCounterBounded_isRecordProperty : IsRecordProperty .spz SpzCounterBounded := by
  intro s t hrec hs
  have hrec : s.spz = t.spz := hrec
  show t.spz.a.toNat ≤ 128
  rw [← hrec]
  exact hs

/-- With the default stop condition the counter is below 128 before `absorb_stop` raises it. -/
theorem spzAbsorbStop_a_le (r : SpzEngine) : (spzAbsorbStop params r).a.toNat ≤ 128 := by
  have hone : (1 : Byte).toNat = 1 := rfl
  have hstop : params.spzStopCond r.a = decide (128 ≤ r.a.toNat) := rfl
  rw [spzAbsorbStop, spzBumpA_a, hstop, BitVec.toNat_add, hone]
  split_ifs with h
  · rw [spzShuffle_a]; decide
  · have := of_decide_eq_false (Bool.eq_false_iff.mpr h)
    omega

theorem exec_keeps_spzCounter {i : Instr} {s t : State} (he : i.eng = .spz) (ht : exec i s = .next t)
    (hs : valid .spz s = true → SpzCounterBounded s) : valid .spz t = true → SpzCounterBounded t := by
  have hP := spzCounterBounded_isRecordProperty
  cases i <;> cases he <;> injection ht with ht <;> subst ht
  case spzInit key => exact initEngine_establishes hP (spzAbsorbAll_a_le spzInitial key (by decide))
  case spzSqueeze count =>
    refine useEngine_keeps hP (fun _ => ?_) hs
    show (spzSqueeze count.toNat s.spz).1.a.toNat ≤ 128
    rw [spzSqueeze_a]
    decide
  case spzAbsorb data => exact useEngine_keeps hP (spzAbsorbAll_a_le s.spz data) hs
  case spzAbsorbStop => exact useEngine_keeps hP (fun _ => spzAbsorbStop_a_le s.spz) hs

/-- Settles O49: only a Spritz command moves the counter, and each of the four bounds it. -/
theorem stepKeepsSpzCounter : Obligations.StepKeepsSpzCounter :=
  fun _ _ hs ht => step_keeps_engine spzCounterBounded_isRecordProperty
    (fun _ _ _ => exec_keeps_spzCounter) hs ht

/-! ## The Spritz scalars after an INIT -/

theorem spzMakeRoom_of_lt {r : SpzEngine} (h : r.a.toNat < 128) : spzMakeRoom r = r :=
  if_neg (by simpa using h)

theorem spzMakeRoom_of_le {r : SpzEngine} (h : 128 ≤ r.a.toNat) : spzMakeRoom r = spzShuffle r :=
  if_pos h

/-- R187: beside `a` and `S`, placing a nibble writes no register. -/
theorem spzAbsorbNibble_registers (r : SpzEngine) (n : Byte) :
    (spzAbsorbNibble r n).i = (spzMakeRoom r).i ∧ (spzAbsorbNibble r n).j = (spzMakeRoom r).j ∧
      (spzAbsorbNibble r n).k = (spzMakeRoom r).k ∧ (spzAbsorbNibble r n).w = (spzMakeRoom r).w ∧
      (spzAbsorbNibble r n).z = (spzMakeRoom r).z := by
  simp [spzAbsorbNibble, spzPlaceNibble]

/-- The scalars after `m` nibbles on the initial state: every nibble raises `a`, and before each nibble that
finds `a = 128` a shuffle clears `a` and raises `w` by 6; `j` and `k` are those of the initial state until
the first shuffle. -/
def NibblesAbsorbed (m : Nat) (r : SpzEngine) : Prop :=
  r.i = 0 ∧ r.z = 0 ∧ r.a.toNat = m - 128 * ((m - 1) / 128) ∧
    r.w = BitVec.ofNat 8 (6 * ((m - 1) / 128)) ∧ (m ≤ 128 → r.j = 0 ∧ r.k = 0)

theorem nibblesAbsorbed_initial : NibblesAbsorbed 0 spzInitial :=
  ⟨rfl, rfl, rfl, rfl, fun _ => ⟨rfl, rfl⟩⟩

theorem NibblesAbsorbed.absorbNibble {m : Nat} {r : SpzEngine} (h : NibblesAbsorbed m r) (n : Byte) :
    NibblesAbsorbed (m + 1) (spzAbsorbNibble r n) := by
  obtain ⟨hi, hz, ha, hw, hjk⟩ := h
  obtain ⟨ei, ej, ek, ew, ez⟩ := spzAbsorbNibble_registers r n
  have hone : (1 : Byte).toNat = 1 := rfl
  by_cases hroom : r.a.toNat < 128
  · have hq : (m + 1 - 1) / 128 = (m - 1) / 128 := by omega
    rw [spzMakeRoom_of_lt hroom] at ei ej ek ew ez
    refine ⟨ei.trans hi, ez.trans hz, ?_, by rw [ew, hw, hq], fun hm => ?_⟩
    · rw [spzAbsorbNibble_a, spzMakeRoom_of_lt hroom, BitVec.toNat_add, hone]
      omega
    · rw [ej, ek]
      exact hjk (by omega)
  · have hq : (m + 1 - 1) / 128 = (m - 1) / 128 + 1 := by omega
    have hsum : ((0 : Byte) + 1).toNat = 1 := rfl
    have hfull := spzMakeRoom_of_le (Nat.le_of_not_lt hroom)
    rw [hfull] at ei ew ez
    refine ⟨?_, ?_, ?_, ?_, fun hm => by omega⟩
    · rw [ei, spzShuffle_i, hi]
    · rw [ez, spzShuffle_z, hz]
    · rw [spzAbsorbNibble_a, hfull, spzShuffle_a, hsum]
      omega
    · rw [ew, spzShuffle_w, hw, hq, Nat.mul_add, BitVec.ofNat_add]
      rfl

/-- R188: a byte is two nibbles. -/
theorem NibblesAbsorbed.absorbAll {m : Nat} {r : SpzEngine} (h : NibblesAbsorbed m r) (bs : List Byte) :
    NibblesAbsorbed (m + 2 * bs.length) (spzAbsorbAll r bs) := by
  induction bs generalizing m r with
  | nil => exact h
  | cons b bs ih =>
    have hbyte : NibblesAbsorbed (m + 2) (spzAbsorbByte r b) := (h.absorbNibble _).absorbNibble _
    have hlen : m + 2 * (b :: bs).length = m + 2 + 2 * bs.length := by
      rw [List.length_cons]; omega
    rw [hlen]
    exact ih hbyte

/-- R192: a key of `n` bytes is `2n` nibbles on the initial state. -/
theorem nibblesAbsorbed_spzConstruct (key : List Byte) :
    NibblesAbsorbed (2 * key.length) (spzConstruct key) := by
  rw [spzConstruct, ← Nat.zero_add (2 * key.length)]
  exact nibblesAbsorbed_initial.absorbAll key

/-- Settles O39: the INIT completes with the engine that the key's `2n` nibbles leave. -/
theorem spzInitScalars : Obligations.SpzInitScalars := by
  intro key s hmin hmax
  obtain ⟨hi, hz, ha, hw, hjk⟩ := nibblesAbsorbed_spzConstruct key
  have hspz : (initEngine .spz (keyReject key.length) (putSpz (spzConstruct key)) s).spz =
      spzConstruct key := by
    rw [keyReject_of_accepted hmin hmax, initEngine_accepted, respond_spz, setValid_spz, putSpz_spz]
  refine ⟨_, rfl, ?_⟩
  rw [hspz]
  refine ⟨?_, ?_, hi, hz, fun hn => hjk (by omega)⟩
  · rw [ha]; omega
  · rw [hw, BitVec.toNat_ofNat]; omega

end Sys2Proof.Machine
end

