-- ==== Sys2Proof/Proofs/Encoding.lean ====
section
/-! PROOFS. The statements of 30_encoding.md. A row selects the headers whose bits above its operands are its
match bits (`selects_iff_high`): read field by field, this says which headers are illegal. Between a row's
headers with their payloads and its commands the decoder and the encoder are inverse (`RowCodes`), shown once
per packet format. What a step does to the streams follows from `step_cases`. -/

namespace Sys2Proof

/-! ## The rows of the opcode map -/

/-- R73: how many low bits of a header its format gives to operands. -/
def Format.operandBits : Format → Nat
  | .k => 10
  | .kv => 20
  | .l => 10
  | .g => 0
  | .q => 16

/-- R75: a row's mask takes in every bit above the operands. -/
theorem opcodeTable_mask : ∀ r ∈ opcodeTable,
    r.mask = BitVec.allOnes 32 <<< r.format.operandBits := by
  decide

/-- R75: a row's match bits lie in ENG and OP. -/
theorem opcodeTable_matchBits : ∀ r ∈ opcodeTable, r.matchBits &&& r.mask = r.matchBits ∧
    r.matchBits.extractLsb' 0 10 = 0 ∧ r.matchBits.extractLsb' 10 10 = 0 ∧
    r.matchBits.extractLsb' 20 4 = 0 ∧
    r.matchBits.extractLsb' r.format.operandBits (20 - r.format.operandBits) = 0 := by
  decide

/-- R75: a row selects the headers whose bits above the operands are its match bits. -/
theorem selects_iff_high {r : OpRow} (hr : r ∈ opcodeTable) (h : Word32) :
    r.selects h = true ↔ h >>> r.format.operandBits <<< r.format.operandBits = r.matchBits := by
  rw [OpRow.selects, opcodeTable_mask r hr, BitVec.shiftLeft_ushiftRight, beq_iff_eq]

/-! ## The fields of a selected header -/

/-- Equal fields are equal bit by bit. -/
theorem extract_eq_iff (h m : Word32) (start len : Nat) :
    h.extractLsb' start len = m.extractLsb' start len ↔
      ∀ b < len, h.getLsbD (start + b) = m.getLsbD (start + b) := by
  rw [BitVec.eq_of_getLsbD_eq_iff]
  refine forall₂_congr fun b hb => ?_
  simp [hb]

/-- A field is its upper and its lower part. -/
theorem extract_eq_iff_split (h m : Word32) (start low high : Nat) :
    h.extractLsb' start (high + low) = m.extractLsb' start (high + low) ↔
      h.extractLsb' (start + low) high = m.extractLsb' (start + low) high ∧
        h.extractLsb' start low = m.extractLsb' start low := by
  simp only [extract_eq_iff]
  constructor
  · intro heq
    refine ⟨fun b hb => ?_, fun b hb => heq b (by omega)⟩
    rw [Nat.add_assoc]
    exact heq (low + b) (by omega)
  · rintro ⟨hhigh, hlow⟩ b hb
    by_cases hbl : b < low
    · exact hlow b hbl
    · have hbit := hhigh (b - low) (by omega)
      rwa [Nat.add_assoc, Nat.add_sub_cancel' (Nat.le_of_not_lt hbl)] at hbit

/-- R75: the bits above the operands, read as ENG, OP and RSV with the must-be-zero bits below them. -/
theorem selects_iff_extract {r : OpRow} (hr : r ∈ opcodeTable) (h : Word32) :
    r.selects h = true ↔ h.extractLsb' r.format.operandBits (12 + (20 - r.format.operandBits)) =
      r.matchBits.extractLsb' r.format.operandBits (12 + (20 - r.format.operandBits)) := by
  have hle : r.format.operandBits ≤ 20 := by cases r.format <;> decide
  have hm := (selects_iff_high hr r.matchBits).1 (beq_iff_eq.2 (opcodeTable_matchBits r hr).1)
  rw [selects_iff_high hr, extract_eq_iff]
  generalize r.format.operandBits = n at *
  constructor
  · intro hs b hb
    have hlt : n + b < 32 := by omega
    rw [← hs]
    simp [hlt]
  · intro hbits
    rw [← hm]
    refine BitVec.eq_of_getLsbD_eq fun b hb => ?_
    by_cases hn : b < n
    · simp [hn]
    · have hbit := hbits (b - n) (by omega)
      have hsum := Nat.add_sub_cancel' (Nat.le_of_not_lt hn)
      rw [hsum] at hbit
      simpa [hn, hb, hsum] using hbit

/-- R72: the header's ENG field. -/
def engField (h : Word32) : Nat := (h.extractLsb' 28 4).toNat

/-- R72: the header's OP field. -/
def opField (h : Word32) : Nat := (h.extractLsb' 24 4).toNat

/-- R73: the must-be-zero bits of a format, between its operands and RSV, are zero. -/
def Format.MbzClear (f : Format) (h : Word32) : Prop :=
  h.extractLsb' f.operandBits (20 - f.operandBits) = 0

theorem mbzClear_k (h : Word32) : Format.k.MbzClear h ↔ h.extractLsb' 10 10 = 0 := Iff.rfl
theorem mbzClear_kv (h : Word32) : Format.kv.MbzClear h ↔ True := iff_true_intro BitVec.of_length_zero
theorem mbzClear_l (h : Word32) : Format.l.MbzClear h ↔ h.extractLsb' 10 10 = 0 := Iff.rfl
theorem mbzClear_g (h : Word32) : Format.g.MbzClear h ↔ h.extractLsb' 0 20 = 0 := Iff.rfl
theorem mbzClear_q (h : Word32) : Format.q.MbzClear h ↔ h.extractLsb' 16 4 = 0 := Iff.rfl

/-- R72, R73, R75: a row selects the headers with its ENG and OP, RSV zero and the format's must-be-zero
bits zero. -/
theorem selects_iff_fields {r : OpRow} (hr : r ∈ opcodeTable) (h : Word32) :
    r.selects h = true ↔ engField h = engField r.matchBits ∧ opField h = opField r.matchBits ∧
      h.extractLsb' 20 4 = 0 ∧ r.format.MbzClear h := by
  have hle : r.format.operandBits ≤ 20 := by cases r.format <;> decide
  obtain ⟨-, -, -, hrsv, hmbz⟩ := opcodeTable_matchBits r hr
  have htop := extract_eq_iff_split h r.matchBits 20 4 8
  have hcmd := extract_eq_iff_split h r.matchBits 24 4 4
  rw [selects_iff_extract hr, extract_eq_iff_split, Nat.add_sub_cancel' hle, htop, hcmd, hrsv, hmbz,
    and_assoc, and_assoc, engField, engField, opField, opField, BitVec.toNat_inj, BitVec.toNat_inj,
    Format.MbzClear]

/-- Settles O4: the lookup finds each of the two rows. -/
theorem opcodeRowsDisjoint : Obligations.OpcodeRowsDisjoint := by
  intro r hr r' hr' h hs hs'
  exact Option.some.inj ((lookupRow_eq_some hr hs).symm.trans (lookupRow_eq_some hr' hs'))

/-- R77: a header is illegal when it has the fields of no row. -/
theorem lookupRow_eq_none_iff (h : Word32) :
    lookupRow h = none ↔ ∀ r ∈ opcodeTable, ¬(engField h = engField r.matchBits ∧
      opField h = opField r.matchBits ∧ h.extractLsb' 20 4 = 0 ∧ r.format.MbzClear h) := by
  rw [lookupRow, List.find?_eq_none]
  exact forall₂_congr fun r hr => not_congr (selects_iff_fields hr h)

/-- Settles O5: with RSV nonzero, ENG or OP above 4 both sides hold; at each other pair of ENG and OP at most
one row is left, and its must-be-zero bits decide. -/
theorem illegalHeaderForms : Obligations.IllegalHeaderForms := by
  intro h
  have hrsv : (h.extractLsb' 20 4).toNat = 0 ↔ h.extractLsb' 20 4 = 0 := BitVec.toNat_inj (y := 0)
  rw [lookupRow_eq_none_iff]
  simp only [opcodeTable, List.forall_mem_cons, List.not_mem_nil, false_imp_iff, implies_true, and_true,
    mbzClear_k, mbzClear_kv, mbzClear_l, mbzClear_g, mbzClear_q, engField, opField,
    BitVec.reduceExtractLsb', BitVec.reduceToNat, ne_eq, hrsv]
  generalize (h.extractLsb' 28 4).toNat = eng
  generalize (h.extractLsb' 24 4).toNat = op
  generalize (h.extractLsb' 20 4 = 0) = rsvClear, (h.extractLsb' 10 10 = 0) = ivClear,
    (h.extractLsb' 0 20 = 0) = lowClear, (h.extractLsb' 16 4 = 0) = highClear
  by_cases hr : rsvClear
  case neg => simp [hr]
  rcases Nat.lt_or_ge op 5 with hop | hop
  · rcases Nat.lt_or_ge eng 5 with heng | heng
    · interval_cases op <;> simp [hr] <;> interval_cases eng <;> simp
    · have hne : ∀ n < 5, eng ≠ n := fun n hn => by omega
      simp [heng, hne]
  · have hne : ∀ n < 5, op ≠ n := fun n hn => by omega
    simp [hop, hne]

/-! ## A row and the commands it encodes -/

/-- R70, R74: the row `r` reads header `h` and payload `p` as the well-formed command `i`, and `h` and `p` are
what `i` is encoded to. -/
def RowCodes (r : OpRow) (h : Word32) (p : List Byte) (i : Instr) : Prop :=
  r ∈ opcodeTable ∧ r.selects h = true ∧ p.length = payloadLength r.format h ∧
    buildInstr r.opcode h p = i ∧ i.wellFormed = true ∧ encodeHeader i = h ∧ encodePayload i = p

/-- R73: a row of format K or L, whose commands `mk bs` carry one byte sequence. -/
def IsLenRow (r : OpRow) (mk : List Byte → Instr) : Prop :=
  r ∈ opcodeTable ∧ (r.format = .k ∨ r.format = .l) ∧
    (∀ h p, buildInstr r.opcode h p = mk (p.take (lenField h))) ∧
    ∀ bs, (mk bs).wellFormed = fitsLenField bs ∧
      encodeHeader (mk bs) = headerWithLen r.matchBits bs ∧ encodePayload (mk bs) = bs

/-- R73: a row of format KV, whose commands `mk key iv` carry a key and an IV. -/
def IsLensRow (r : OpRow) (mk : List Byte → List Byte → Instr) : Prop :=
  r ∈ opcodeTable ∧ r.format = .kv ∧
    (∀ h p, buildInstr r.opcode h p = mk (p.take (lenField h)) (p.drop (lenField h))) ∧
    ∀ key iv, (mk key iv).wellFormed = (fitsLenField key && fitsLenField iv) ∧
      encodeHeader (mk key iv) = headerWithLens r.matchBits key iv ∧
      encodePayload (mk key iv) = key ++ iv

/-- R73: a row of format G, whose one command `i` has no operand. -/
def IsBareRow (r : OpRow) (i : Instr) : Prop :=
  r ∈ opcodeTable ∧ r.format = .g ∧ (∀ h p, buildInstr r.opcode h p = i) ∧
    i.wellFormed = true ∧ encodeHeader i = r.matchBits ∧ encodePayload i = []

/-- R75: the one row of format Q. -/
def squeezeRow : OpRow := ⟨.spzSqueeze, .q, 0x42000000, 0xFFFF0000⟩

theorem squeezeRow_mem : squeezeRow ∈ opcodeTable := by decide

theorem rc4Init_isLenRow : IsLenRow ⟨.rc4Init, .k, 0x01000000, 0xFFFFFC00⟩ .rc4Init :=
  ⟨by decide, .inl rfl, fun _ _ => rfl, fun _ => ⟨rfl, rfl, rfl⟩⟩

theorem rc4aInit_isLenRow : IsLenRow ⟨.rc4aInit, .k, 0x21000000, 0xFFFFFC00⟩ .rc4aInit :=
  ⟨by decide, .inl rfl, fun _ _ => rfl, fun _ => ⟨rfl, rfl, rfl⟩⟩

theorem spzInit_isLenRow : IsLenRow ⟨.spzInit, .k, 0x41000000, 0xFFFFFC00⟩ .spzInit :=
  ⟨by decide, .inl rfl, fun _ _ => rfl, fun _ => ⟨rfl, rfl, rfl⟩⟩

theorem spzAbsorb_isLenRow : IsLenRow ⟨.spzAbsorb, .l, 0x43000000, 0xFFFFFC00⟩ .spzAbsorb :=
  ⟨by decide, .inr rfl, fun _ _ => rfl, fun _ => ⟨rfl, rfl, rfl⟩⟩

theorem rc4pInit_isLensRow : IsLensRow ⟨.rc4pInit, .kv, 0x11000000, 0xFFF00000⟩ .rc4pInit :=
  ⟨by decide, rfl, fun _ _ => rfl, fun _ _ => ⟨rfl, rfl, rfl⟩⟩

theorem vmpcInit_isLensRow : IsLensRow ⟨.vmpcInit, .kv, 0x31000000, 0xFFF00000⟩ .vmpcInit :=
  ⟨by decide, rfl, fun _ _ => rfl, fun _ _ => ⟨rfl, rfl, rfl⟩⟩

theorem rc4Gen_isBareRow : IsBareRow ⟨.rc4Gen, .g, 0x02000000, 0xFFFFFFFF⟩ .rc4Gen :=
  ⟨by decide, rfl, fun _ _ => rfl, rfl, rfl, rfl⟩

theorem rc4pGen_isBareRow : IsBareRow ⟨.rc4pGen, .g, 0x12000000, 0xFFFFFFFF⟩ .rc4pGen :=
  ⟨by decide, rfl, fun _ _ => rfl, rfl, rfl, rfl⟩

theorem rc4aGen_isBareRow : IsBareRow ⟨.rc4aGen, .g, 0x22000000, 0xFFFFFFFF⟩ .rc4aGen :=
  ⟨by decide, rfl, fun _ _ => rfl, rfl, rfl, rfl⟩

theorem vmpcGen_isBareRow : IsBareRow ⟨.vmpcGen, .g, 0x32000000, 0xFFFFFFFF⟩ .vmpcGen :=
  ⟨by decide, rfl, fun _ _ => rfl, rfl, rfl, rfl⟩

theorem spzAbsorbStop_isBareRow : IsBareRow ⟨.spzAbsorbStop, .g, 0x44000000, 0xFFFFFFFF⟩ .spzAbsorbStop :=
  ⟨by decide, rfl, fun _ _ => rfl, rfl, rfl, rfl⟩

/-! ## From a command to its row -/

theorem fitsLenField_iff (bs : List Byte) : fitsLenField bs = true ↔ bs.length < 1024 :=
  decide_eq_true_iff

/-- R73, R74: formats K and L have ten operand bits, which say the payload's length. -/
theorem len_format {f : Format} (hf : f = .k ∨ f = .l) :
    f.operandBits = 10 ∧ ∀ h, payloadLength f h = lenField h := by
  rcases hf with rfl | rfl <;> exact ⟨rfl, fun _ => rfl⟩

theorem IsLenRow.rowCodes_encode {r : OpRow} {mk : List Byte → Instr} (hr : IsLenRow r mk)
    {bs : List Byte} (hw : (mk bs).wellFormed = true) :
    RowCodes r (encodeHeader (mk bs)) (encodePayload (mk bs)) (mk bs) := by
  obtain ⟨hmem, hformat, hbuild, hmk⟩ := hr
  obtain ⟨hwf, hheader, hpayload⟩ := hmk bs
  obtain ⟨hbits, hpl⟩ := len_format hformat
  obtain ⟨hmatch, hlow, -⟩ := opcodeTable_matchBits r hmem
  have hmask : r.mask = 0xFFFFFC00 := by rw [opcodeTable_mask r hmem, hbits]; rfl
  rw [hmask] at hmatch
  obtain ⟨hsel, hlen⟩ := headerWithLen_spec hmatch hlow ((fitsLenField_iff bs).1 (hwf ▸ hw))
  refine ⟨hmem, ?_, ?_, ?_, hw, rfl, rfl⟩ <;> rw [hheader]
  · rw [OpRow.selects, hmask, beq_iff_eq]; exact hsel
  · rw [hpl, hpayload, hlen]
  · rw [hbuild, hpayload, hlen, List.take_length]

theorem IsLensRow.rowCodes_encode {r : OpRow} {mk : List Byte → List Byte → Instr}
    (hr : IsLensRow r mk) {key iv : List Byte} (hw : (mk key iv).wellFormed = true) :
    RowCodes r (encodeHeader (mk key iv)) (encodePayload (mk key iv)) (mk key iv) := by
  obtain ⟨hmem, hformat, hbuild, hmk⟩ := hr
  obtain ⟨hwf, hheader, hpayload⟩ := hmk key iv
  obtain ⟨hmatch, hlow, hhigh, -⟩ := opcodeTable_matchBits r hmem
  have hmask : r.mask = 0xFFF00000 := by rw [opcodeTable_mask r hmem, hformat]; rfl
  rw [hmask] at hmatch
  obtain ⟨hkey, hiv⟩ := Bool.and_eq_true_iff.1 (hwf ▸ hw)
  obtain ⟨hsel, hlen, hivlen⟩ := headerWithLens_spec hmatch hlow hhigh
    ((fitsLenField_iff key).1 hkey) ((fitsLenField_iff iv).1 hiv)
  refine ⟨hmem, ?_, ?_, ?_, hw, rfl, rfl⟩ <;> rw [hheader]
  · rw [OpRow.selects, hmask, beq_iff_eq]; exact hsel
  · rw [hformat, hpayload, payloadLength, hlen, hivlen, List.length_append]
  · rw [hbuild, hpayload, hlen, List.take_left, List.drop_left]

theorem IsBareRow.rowCodes_encode {r : OpRow} {i : Instr} (hr : IsBareRow r i) :
    RowCodes r (encodeHeader i) (encodePayload i) i := by
  obtain ⟨hmem, hformat, hbuild, hwf, hheader, hpayload⟩ := hr
  refine ⟨hmem, ?_, ?_, hbuild _ _, hwf, rfl, rfl⟩
  · rw [OpRow.selects, hheader, beq_iff_eq]; exact (opcodeTable_matchBits r hmem).1
  · rw [hpayload, hformat]; rfl

/-- R73: the COUNT of a squeeze header. -/
theorem countField_squeeze (count : BitVec 16) :
    countField (encodeHeader (.spzSqueeze count)) = count := by
  have hm : (0x42000000#32).extractLsb' 0 16 = 0#16 := by decide
  show (0x42000000#32 ||| count.setWidth 32).extractLsb' 0 16 = count
  rw [BitVec.extractLsb'_or, hm, BitVec.zero_or, BitVec.extractLsb'_setWidth_of_le (by decide)]
  simp

theorem squeezeRow_rowCodes_encode (count : BitVec 16) : RowCodes squeezeRow
    (encodeHeader (.spzSqueeze count)) (encodePayload (.spzSqueeze count)) (.spzSqueeze count) := by
  refine ⟨squeezeRow_mem, ?_, rfl, congrArg Instr.spzSqueeze (countField_squeeze count), rfl, rfl, rfl⟩
  have hm : 0x42000000#32 &&& 0xFFFF0000#32 = 0x42000000#32 := by decide
  rw [OpRow.selects, beq_iff_eq]
  show (0x42000000#32 ||| count.setWidth 32) &&& 0xFFFF0000#32 = 0x42000000#32
  rw [BitVec.and_or_distrib_right, Laws.PacketLength.count_and_mask, hm, BitVec.or_zero]

/-- R75, R79: every well-formed command has a row. -/
theorem exists_rowCodes_encode {i : Instr} (hw : i.wellFormed = true) :
    ∃ r, RowCodes r (encodeHeader i) (encodePayload i) i := by
  cases i with
  | rc4Init key => exact ⟨_, rc4Init_isLenRow.rowCodes_encode hw⟩
  | rc4Gen => exact ⟨_, rc4Gen_isBareRow.rowCodes_encode⟩
  | rc4pInit key iv => exact ⟨_, rc4pInit_isLensRow.rowCodes_encode hw⟩
  | rc4pGen => exact ⟨_, rc4pGen_isBareRow.rowCodes_encode⟩
  | rc4aInit key => exact ⟨_, rc4aInit_isLenRow.rowCodes_encode hw⟩
  | rc4aGen => exact ⟨_, rc4aGen_isBareRow.rowCodes_encode⟩
  | vmpcInit key iv => exact ⟨_, vmpcInit_isLensRow.rowCodes_encode hw⟩
  | vmpcGen => exact ⟨_, vmpcGen_isBareRow.rowCodes_encode⟩
  | spzInit key => exact ⟨_, spzInit_isLenRow.rowCodes_encode hw⟩
  | spzSqueeze count => exact ⟨_, squeezeRow_rowCodes_encode count⟩
  | spzAbsorb data => exact ⟨_, spzAbsorb_isLenRow.rowCodes_encode hw⟩
  | spzAbsorbStop => exact ⟨_, spzAbsorbStop_isBareRow.rowCodes_encode⟩

/-- Settles O1: the command's row selects its header and cuts its operands from its payload. -/
theorem decodeEncodeAgree : Obligations.DecodeEncodeAgree := by
  intro i rest hw
  obtain ⟨r, hr, hsel, hlen, hbuild, -⟩ := exists_rowCodes_encode hw
  rw [encode, List.append_assoc, decode_headerBytes, decodePacket_of_selects hr hsel hlen, hbuild]

/-! ## From a header to its command -/

/-- A header is its bits above the lowest `n` and those `n`. -/
theorem high_or_low (h : Word32) (n : Nat) :
    h >>> n <<< n ||| (h.extractLsb' 0 n).setWidth 32 = h := by
  refine BitVec.eq_of_getLsbD_eq fun b hb => ?_
  by_cases hn : b < n
  · simp [hn, hb]
  · simp [hn, hb, Nat.add_sub_cancel' (Nat.le_of_not_lt hn)]

/-- R73, R75: a header is the match bits of the row it selects and the operand bits of the row's format. -/
theorem matchBits_or_operand {r : OpRow} (hr : r ∈ opcodeTable) {h : Word32}
    (hs : r.selects h = true) :
    r.matchBits ||| (h.extractLsb' 0 r.format.operandBits).setWidth 32 = h := by
  rw [← (selects_iff_high hr h).1 hs, high_or_low]

/-- R73: the operand bits of format KV are the two length fields. -/
theorem lens_eq_operand (h : Word32) :
    BitVec.ofNat 32 (ivlenField h) <<< 10 ||| BitVec.ofNat 32 (lenField h) =
      (h.extractLsb' 0 20).setWidth 32 := by
  rw [ivlenField, lenField, BitVec.ofNat_toNat, BitVec.ofNat_toNat]
  refine BitVec.eq_of_getLsbD_eq fun n hn => ?_
  by_cases hlow : n < 10
  · simp [hlow, hn]
    omega
  · have hiff : n - 10 < 10 ↔ n < 20 := by omega
    simp [hlow, hn, hiff, Nat.add_sub_cancel' (Nat.le_of_not_lt hlow)]

theorem lenField_lt (h : Word32) : lenField h < 1024 := (h.extractLsb' 0 10).isLt

theorem ivlenField_lt (h : Word32) : ivlenField h < 1024 := (h.extractLsb' 10 10).isLt

theorem IsLenRow.rowCodes_buildInstr {r : OpRow} {mk : List Byte → Instr} (hr : IsLenRow r mk)
    {h : Word32} {p : List Byte} (hs : r.selects h = true)
    (hl : p.length = payloadLength r.format h) : RowCodes r h p (buildInstr r.opcode h p) := by
  obtain ⟨hmem, hformat, hbuild, hmk⟩ := hr
  obtain ⟨hwf, hheader, hpayload⟩ := hmk p
  obtain ⟨hbits, hpl⟩ := len_format hformat
  have hlen : p.length = lenField h := hl.trans (hpl h)
  have hh := matchBits_or_operand hmem hs
  rw [hbits] at hh
  refine ⟨hmem, hs, hl, rfl, ?_, ?_, ?_⟩ <;> rw [hbuild, ← hlen, List.take_length]
  · rw [hwf, fitsLenField_iff, hlen]
    exact lenField_lt h
  · rw [hheader, headerWithLen, hlen, lenField, BitVec.ofNat_toNat, hh]
  · exact hpayload

theorem IsLensRow.rowCodes_buildInstr {r : OpRow} {mk : List Byte → List Byte → Instr}
    (hr : IsLensRow r mk) {h : Word32} {p : List Byte} (hs : r.selects h = true)
    (hl : p.length = payloadLength r.format h) : RowCodes r h p (buildInstr r.opcode h p) := by
  obtain ⟨hmem, hformat, hbuild, hmk⟩ := hr
  obtain ⟨hwf, hheader, hpayload⟩ := hmk (p.take (lenField h)) (p.drop (lenField h))
  have hlen : p.length = lenField h + ivlenField h := by rw [hl, hformat, payloadLength]
  have hkey : (p.take (lenField h)).length = lenField h := by rw [List.length_take]; omega
  have hiv : (p.drop (lenField h)).length = ivlenField h := by rw [List.length_drop]; omega
  have hh := matchBits_or_operand hmem hs
  rw [hformat, Format.operandBits, ← lens_eq_operand] at hh
  refine ⟨hmem, hs, hl, rfl, ?_, ?_, ?_⟩ <;> rw [hbuild]
  · rw [hwf, Bool.and_eq_true, fitsLenField_iff, fitsLenField_iff, hkey, hiv]
    exact ⟨lenField_lt h, ivlenField_lt h⟩
  · rw [hheader, headerWithLens, hkey, hiv, BitVec.or_assoc, hh]
  · rw [hpayload, List.take_append_drop]

theorem IsBareRow.rowCodes_buildInstr {r : OpRow} {i : Instr} (hr : IsBareRow r i) {h : Word32}
    {p : List Byte} (hs : r.selects h = true) (hl : p.length = payloadLength r.format h) :
    RowCodes r h p (buildInstr r.opcode h p) := by
  obtain ⟨hmem, hformat, hbuild, hwf, hheader, hpayload⟩ := hr
  have hh := (selects_iff_high hmem h).1 hs
  rw [hformat, Format.operandBits, BitVec.ushiftRight_zero, BitVec.shiftLeft_zero] at hh
  have hp : p = [] := by rw [hformat] at hl; exact List.eq_nil_of_length_eq_zero hl
  refine ⟨hmem, hs, hl, rfl, ?_, ?_, ?_⟩ <;> rw [hbuild]
  · exact hwf
  · rw [hheader, hh]
  · rw [hpayload, hp]

theorem squeezeRow_rowCodes_buildInstr {h : Word32} {p : List Byte} (hs : squeezeRow.selects h = true)
    (hl : p.length = payloadLength squeezeRow.format h) :
    RowCodes squeezeRow h p (buildInstr squeezeRow.opcode h p) :=
  ⟨squeezeRow_mem, hs, hl, rfl, rfl, matchBits_or_operand squeezeRow_mem hs,
    (List.eq_nil_of_length_eq_zero hl).symm⟩

/-- R74, R75: what a row builds from a header and its payload is encoded to them. -/
theorem rowCodes_buildInstr {r : OpRow} (hr : r ∈ opcodeTable) {h : Word32} {p : List Byte}
    (hs : r.selects h = true) (hl : p.length = payloadLength r.format h) :
    RowCodes r h p (buildInstr r.opcode h p) := by
  simp only [opcodeTable, List.mem_cons, List.not_mem_nil, or_false] at hr
  rcases hr with rfl | rfl | rfl | rfl | rfl | rfl | rfl | rfl | rfl | rfl | rfl | rfl
  · exact rc4Init_isLenRow.rowCodes_buildInstr hs hl
  · exact rc4Gen_isBareRow.rowCodes_buildInstr hs hl
  · exact rc4pInit_isLensRow.rowCodes_buildInstr hs hl
  · exact rc4pGen_isBareRow.rowCodes_buildInstr hs hl
  · exact rc4aInit_isLenRow.rowCodes_buildInstr hs hl
  · exact rc4aGen_isBareRow.rowCodes_buildInstr hs hl
  · exact vmpcInit_isLensRow.rowCodes_buildInstr hs hl
  · exact vmpcGen_isBareRow.rowCodes_buildInstr hs hl
  · exact spzInit_isLenRow.rowCodes_buildInstr hs hl
  · exact squeezeRow_rowCodes_buildInstr hs hl
  · exact spzAbsorb_isLenRow.rowCodes_buildInstr hs hl
  · exact spzAbsorbStop_isBareRow.rowCodes_buildInstr hs hl

/-- Settles O2: the decoder builds its command from a selected header and a payload of the row's length. -/
theorem decodedPacketIsItsEncoding : Obligations.DecodedPacketIsItsEncoding := by
  intro bs i rest hd
  obtain ⟨h, r, payload, hrow, rfl, hlen, rfl⟩ := decode_eq_instr hd
  obtain ⟨hr, hs⟩ := lookupRow_some hrow
  obtain ⟨-, -, -, -, hwf, hheader, hpayload⟩ := rowCodes_buildInstr hr hs hlen
  refine ⟨hwf, ?_⟩
  rw [encode, hheader, hpayload, List.append_assoc]

end Sys2Proof

namespace Sys2Proof.Machine

/-! ## Worked encodings -/

/-- Settles O3: each of the given packets and responses is computed. -/
theorem workedEncodings : Obligations.WorkedEncodings := by
  unfold Obligations.WorkedEncodings
  decide

/-! ## The transport -/

theorem headerPayloadLength_of_none {h : Word32} (hrow : lookupRow h = none) :
    headerPayloadLength h = 0 := by
  rw [headerPayloadLength, hrow]

theorem headerPayloadLength_of_some {h : Word32} {r : OpRow} (hrow : lookupRow h = some r) :
    headerPayloadLength h = payloadLength r.format h := by
  rw [headerPayloadLength, hrow]

/-- R80: a header waits when fewer bytes follow it than it asks for. -/
theorem decodePacket_eq_hold_iff (h : Word32) (rest : List Byte) :
    decodePacket h rest = .hold ↔ rest.length < headerPayloadLength h := by
  cases hrow : lookupRow h with
  | none => simp [decodePacket, hrow, headerPayloadLength_of_none]
  | some r =>
    rw [headerPayloadLength_of_some hrow, decodePacket, hrow]
    dsimp only
    split_ifs with hlt <;> simp [hlt]

/-- R80: the decoder waits for the header's four bytes and for its payload. -/
theorem decode_eq_hold_iff (bs : List Byte) :
    decode bs = .hold ↔ bs.length < 4 ∨
      ∃ (b3 b2 b1 b0 : Byte) (rest : List Byte), bs = b3 :: b2 :: b1 :: b0 :: rest ∧
        rest.length < headerPayloadLength (headerWord b3 b2 b1 b0) := by
  match bs with
  | [] | [_] | [_, _] | [_, _, _] => simp [decode]
  | b3 :: b2 :: b1 :: b0 :: rest =>
    rw [decode, decodePacket_eq_hold_iff]
    simp

/-- R80: there is a next state when the decoder does not wait. -/
theorem exists_next_of_decode_ne_hold {s : State} (hd : decode s.cmd ≠ .hold) : ∃ t, step s = .next t := by
  cases h : decode s.cmd with
  | hold => exact absurd h hd
  | illegal w rest => exact ⟨_, step_of_illegal h⟩
  | instr i rest =>
    obtain ⟨t, ht⟩ := everyCommandHasNextState i (consume rest s)
    exact ⟨t, (step_of_instr h).trans ht⟩

theorem step_eq_hold_iff (s : State) : step s = .fault .hold ↔ decode s.cmd = .hold := by
  refine ⟨fun hs => ?_, step_of_hold⟩
  by_contra hd
  obtain ⟨t, ht⟩ := exists_next_of_decode_ne_hold hd
  rw [hs] at ht
  cases ht

/-- Settles O8: the step holds when the decoder waits, and has a next state otherwise. -/
theorem stepHoldsOnIncompletePacket : Obligations.StepHoldsOnIncompletePacket := by
  intro s
  rw [ne_eq, step_eq_hold_iff]
  exact ⟨decode_eq_hold_iff s.cmd, exists_next_of_decode_ne_hold⟩

/-- R81, R221: there are six statuses. -/
theorem statusCode_le (c : Status) : (statusCode c).toNat ≤ 5 := by
  cases c <;> decide

/-- R80, R81: a step appends one response, with no data in a rejection. -/
theorem step_appends_response {s t : State} (ht : step s = .next t) :
    ∃ r : Rsp, t.rsp = s.rsp ++ encodeRsp r ∧ r.data.length ≤ 65535 ∧
      (r.status ≠ .ok → r.data = []) := by
  obtain ⟨w, rest, -, rfl⟩ | ⟨i, rest, -, hexec⟩ := step_cases ht
  · exact ⟨⟨.errIllegal, []⟩, rfl, Nat.zero_le _, fun _ => rfl⟩
  · obtain ⟨f, rsp, h⟩ := exec_effect i
    obtain rfl := h.next_eq hexec
    refine ⟨rsp (consume rest s), ?_, h.length_le _, h.no_data _⟩
    rw [respond_rsp, h.rsp_eq, consume_rsp]

/-- Settles O10: the bytes of the one response a step appends. -/
theorem everyStepAppendsOneResponse : Obligations.EveryStepAppendsOneResponse := by
  intro s t ht
  obtain ⟨r, hrsp, hlen, hdata⟩ := step_appends_response ht
  refine ⟨statusCode r.status, r.data, ?_, hlen, statusCode_le r.status, fun hne => ?_⟩
  · rw [hrsp, List.append_assoc]; rfl
  · exact hdata (mt (statusCode_eq_zero r.status).2 hne)

/-- R74, R78, R80: a step removes from CMD a header and the payload it asks for. -/
theorem step_removes_packet {s t : State} (ht : step s = .next t) :
    ∃ (h : Word32) (payload : List Byte), s.cmd = headerBytes h ++ (payload ++ t.cmd) ∧
      payload.length = headerPayloadLength h := by
  obtain ⟨w, rest, hd, rfl⟩ | ⟨i, rest, hd, hexec⟩ := step_cases ht
  · obtain ⟨hrow, hcmd⟩ := decode_eq_illegal hd
    exact ⟨w, [], hcmd, (headerPayloadLength_of_none hrow).symm⟩
  · obtain ⟨w, r, payload, hrow, hcmd, hlen, -⟩ := decode_eq_instr hd
    obtain ⟨f, rsp, h⟩ := exec_effect i
    obtain rfl := h.next_eq hexec
    refine ⟨w, payload, ?_, hlen.trans (headerPayloadLength_of_some hrow).symm⟩
    rw [respond_cmd, h.cmd_eq, consume_cmd, hcmd]

/-- Settles O11: the four bytes of the removed header make that header. -/
theorem everyStepRemovesOnePacket : Obligations.EveryStepRemovesOnePacket := by
  intro s t ht
  obtain ⟨h, payload, hcmd, hlen⟩ := step_removes_packet ht
  refine ⟨_, _, _, _, payload, hcmd, ?_⟩
  rw [← headerWord, headerWord_of_bytes, hlen]

/-- Settles O6: `consume` is what removes the packet. -/
theorem stepRunsDecodedCommand : Obligations.StepRunsDecodedCommand :=
  fun _ _ _ hd => step_of_instr hd

/-- Settles O7: the decoder takes the four bytes for an illegal header, whose meaning is the response. -/
theorem illegalHeaderAnswered : Obligations.IllegalHeaderAnswered := by
  intro s b3 b2 b1 b0 rest hcmd hrow
  have hd : decode s.cmd = .illegal (headerWord b3 b2 b1 b0) rest := by
    rw [hcmd, decode, decodePacket, headerWord, hrow]
  rw [step_of_illegal hd, respond_eq, encodeRsp_empty]
  rfl

end Sys2Proof.Machine
end

