-- ==== Sys2Proof/Proofs/Rc4.lean ====
section
/-! PROOFS. The statements of 40_rc4.md. `exec_rc4Init_accepted` and the four `exec_…Gen_valid` say what state
an accepted INIT of RC4 and a GEN of a valid engine leave; the result statements read it off, and the
count over `m` GENs is one induction on what a single GEN adds (`CountsBy`). -/

namespace Sys2Proof.Machine

/-! ## The states RC4.INIT and the GENs leave -/

theorem exec_rc4Init_accepted {key : List Byte} (h : 1 ≤ key.length) (h' : key.length ≤ 256) (s : State) :
    exec (.rc4Init key) s =
      .next (respond ⟨.ok, []⟩ (setValid .rc4 true (putRc4 (rc4Schedule key) s))) :=
  congrArg (fun check => Host.Outcome.next (initEngine .rc4 check (putRc4 (rc4Schedule key)) s))
    (keyReject_of_accepted h h')

theorem exec_rc4Gen_valid {s : State} (h : valid .rc4 s = true) :
    exec .rc4Gen s = .next (respond ⟨.ok, [rc4Output (advance s.rc4)]⟩ (putRc4 (advance s.rc4) s)) :=
  congrArg Host.Outcome.next (useEngine_valid h _)

theorem exec_rc4pGen_valid {s : State} (h : valid .rc4p s = true) :
    exec .rc4pGen s =
      .next (respond
        ⟨.ok, [params.rc4pOut (advance s.rc4p).S (advance s.rc4p).i (advance s.rc4p).j]⟩
        (putRc4p (advance s.rc4p) s)) :=
  congrArg Host.Outcome.next (useEngine_valid h _)

theorem exec_rc4aGen_valid {s : State} (h : valid .rc4a s = true) :
    exec .rc4aGen s =
      .next (respond ⟨.ok, (rc4aGenerate s.rc4a).2⟩ (putRc4a (rc4aGenerate s.rc4a).1 s)) :=
  congrArg Host.Outcome.next (useEngine_valid h _)

theorem exec_vmpcGen_valid {s : State} (h : valid .vmpc s = true) :
    exec .vmpcGen s =
      .next (respond ⟨.ok, [(vmpcGenerate s.vmpc).2]⟩ (putVmpc (vmpcGenerate s.vmpc).1 s)) :=
  congrArg Host.Outcome.next (useEngine_valid h _)

theorem advance_i (r : PermEngine) : (advance r).i = r.i + 1 := rfl

theorem rc4aGenerate_i (r : Rc4aEngine) : (rc4aGenerate r).1.i = r.i + 1 := rfl

/-! ## RC4 -/

theorem isIdentity_identityTable : IsIdentity identityTable := readCell_identityTable

/-- Settles O21: the schedule is one pass from the identity table and accumulator 0. -/
theorem rc4InitCompletes : Obligations.Rc4InitCompletes := by
  intro key s hmin hmax
  refine ⟨_, exec_rc4Init_accepted hmin hmax s, ?_, rfl, rfl, ?_⟩
  · exact ⟨identityTable, _, isIdentity_identityTable, ksaPass_swapPass key (identityTable, 0)⟩
  · rw [respond_eq, encodeRsp_empty]
    rfl

/-- Settles O22: `advance` on a valid engine, the rejection on one that is not. -/
theorem rc4GenCompletes : Obligations.Rc4GenCompletes := by
  intro s
  constructor
  · intro hvalid
    refine ⟨_, exec_rc4Gen_valid hvalid, rfl, rfl, swapCells_exchanged _ _ _, ?_⟩
    rw [respond_eq, encodeRsp_one]
    rfl
  · intro hinvalid
    rw [exec_use_of_invalid (i := .rc4Gen) rfl hinvalid, raiseReject_eq]
    rfl

/-! ## Counting GENs -/

theorem execMany_cons_of_next {i : Instr} {s t : State} (h : exec i s = .next t) (is : List Instr) :
    execMany (i :: is) s = execMany is t := by
  rw [execMany, h]

/-- R81: a response is a header of three bytes and its data. -/
theorem respond_rsp_length (r : Rsp) (s : State) :
    (respond r s).rsp.length = s.rsp.length + (r.data.length + 3) := by
  rw [respond_rsp, List.length_append, encodeRsp_length]

/-- On its valid engine the command completes, leaves the engine valid, adds `d` to the register `index`
and appends `unit` bytes to RSP. -/
def CountsBy (i : Instr) (index : State → Byte) (d : Byte) (unit : Nat) : Prop :=
  ∀ s, valid i.eng s = true → ∃ t, exec i s = .next t ∧ valid i.eng t = true ∧
    index t = index s + d ∧ t.rsp.length = s.rsp.length + unit

theorem CountsBy.execMany_replicate {i : Instr} {index : State → Byte} {d : Byte} {unit : Nat}
    (h : CountsBy i index d unit) (m : Nat) {s : State} (hs : valid i.eng s = true) :
    ∃ t, execMany (List.replicate m i) s = some t ∧
      index t = index s + BitVec.ofNat 8 m * d ∧ t.rsp.length = s.rsp.length + unit * m := by
  induction m generalizing s with
  | zero => exact ⟨s, rfl, by simp, rfl⟩
  | succ m ih =>
    obtain ⟨t, hexec, ht, hindex, hrsp⟩ := h s hs
    obtain ⟨u, hmany, hindex', hrsp'⟩ := ih ht
    refine ⟨u, ?_, ?_, ?_⟩
    · rw [List.replicate_succ, execMany_cons_of_next hexec, hmany]
    · rw [hindex', hindex, BitVec.ofNat_add, add_mul, BitVec.one_mul, add_assoc, add_comm d]
    · rw [hrsp', hrsp, Nat.mul_succ, Nat.add_assoc, Nat.add_comm unit]

theorem rc4Gen_countsBy : CountsBy .rc4Gen (fun s => s.rc4.i) 1 4 := fun s hs =>
  ⟨_, exec_rc4Gen_valid hs, hs, advance_i s.rc4, respond_rsp_length _ _⟩

theorem rc4pGen_countsBy : CountsBy .rc4pGen (fun s => s.rc4p.i) 1 4 := fun s hs =>
  ⟨_, exec_rc4pGen_valid hs, hs, advance_i s.rc4p, respond_rsp_length _ _⟩

theorem rc4aGen_countsBy : CountsBy .rc4aGen (fun s => s.rc4a.i) 1 5 := fun s hs =>
  ⟨_, exec_rc4aGen_valid hs, hs, rc4aGenerate_i s.rc4a, respond_rsp_length _ _⟩

/-- R163: VMPC.GEN leaves `i`. -/
theorem vmpcGen_countsBy : CountsBy .vmpcGen (fun s => s.vmpc.i) 0 4 := fun s hs =>
  ⟨_, exec_vmpcGen_valid hs, hs, (BitVec.add_zero s.vmpc.i).symm, respond_rsp_length _ _⟩

/-- Settles O30: each GEN adds 1 to `i`, VMPC's adds 0, and each appends a header and its unit. -/
theorem gensCountInIndex : Obligations.GensCountInIndex := by
  intro m s
  refine ⟨fun hs => ?_, fun hs => ?_, fun hs => ?_, fun hs => ?_⟩
  · simpa only [mul_one] using rc4Gen_countsBy.execMany_replicate m hs
  · simpa only [mul_one] using rc4pGen_countsBy.execMany_replicate m hs
  · simpa only [mul_one] using rc4aGen_countsBy.execMany_replicate m hs
  · simpa only [mul_zero, add_zero] using vmpcGen_countsBy.execMany_replicate m hs

end Sys2Proof.Machine
end

