-- ==== Sys2Proof/Proofs/Rc4p.lean ====
section
/-! PROOFS. The statements of 41_rc4plus.md. `layer2_swapPass` and `layer3_swapPass` read the two layers after RC4's
pass as schedule passes; `shl5_xor_shr3` reads a shifted index of the output transform as a concatenation of
bit fields; that a GEN applies one function to its engine's record (`MapsRecord`) is iterated once. -/

namespace Sys2Proof.Machine

/-! ## RC4P.INIT -/

theorem exec_rc4pInit_accepted {key iv : List Byte} (h : 1 ≤ key.length) (h' : key.length ≤ 256)
    (hiv : iv.length = key.length) (s : State) :
    exec (.rc4pInit key iv) s =
      .next (respond ⟨.ok, []⟩ (setValid .rc4p true (putRc4p (rc4pSchedule key iv) s))) :=
  congrArg (fun check => Host.Outcome.next (initEngine .rc4p check (putRc4p (rc4pSchedule key iv)) s))
    ((keyIvReject_eq_none_iff _ _).mpr ⟨⟨h, h'⟩, hiv⟩)

/-- R122: positions 127 down to 0. -/
theorem layer2_swapPass (key iv : List Byte) (p : Table × Byte) :
    SwapPass 128 (fun n => BitVec.ofNat 8 (127 - n))
      (fun n T j => (j + readCell T (BitVec.ofNat 8 (127 - n))) ^^^
        (operandAt key (127 - n) + operandAt iv (127 - n)))
      p.1 p.2 (layer2 key iv p).1 (layer2 key iv p).2 := by
  rw [layer2_eq]
  exact swapPass_foldl 128 (127 - ·) _ (layer2Step key iv) (fun _ _ _ => by rw [layer2Step]) p

/-- R123: layer 1's update along the zigzag. -/
theorem layer3_swapPass (key : List Byte) (p : Table × Byte) :
    SwapPass 256 (fun y => BitVec.ofNat 8 (zigzagPosition y))
      (fun y T j => j + readCell T (BitVec.ofNat 8 (zigzagPosition y)) + operandAt key (zigzagPosition y))
      p.1 p.2 (layer3 key p).1 (layer3 key p).2 := by
  rw [layer3_eq]
  exact swapPass_foldl 256 zigzag _ (ksaStep key) (fun _ _ _ => rfl) p

/-- Settles O23: each layer is a pass that starts from the table and accumulator the layer before it left. -/
theorem rc4pInitCompletes : Obligations.Rc4pInitCompletes := by
  intro key iv s hmin hmax hiv
  refine ⟨_, exec_rc4pInit_accepted hmin hmax hiv s, ?_, rfl, rfl, ?_⟩
  · exact ⟨identityTable, _, _, _, _, _, isIdentity_identityTable,
      ksaPass_swapPass key (identityTable, 0), layer2_swapPass key iv _, layer3_swapPass key _⟩
  · rw [respond_eq, encodeRsp_empty]
    rfl

/-- R13: the reduced position is no larger than the position, so the bytes from `m` on are not read. -/
theorem operandAt_congr {src src' : List Byte} {m n : Nat} (hlen : src.length = src'.length)
    (hsame : ∀ k, k < m → src[k]? = src'[k]?) (hn : n < m) : operandAt src n = operandAt src' n := by
  unfold operandAt
  rw [List.getD_eq_getElem?_getD, List.getD_eq_getElem?_getD, ← hlen,
    hsame _ ((Nat.mod_le n _).trans_lt hn)]

theorem layer2_congr {key iv iv' : List Byte} (h : ∀ n, n < 128 → operandAt iv n = operandAt iv' n)
    (p : Table × Byte) : layer2 key iv p = layer2 key iv' p := by
  rw [layer2_eq, layer2_eq]
  refine List.foldl_ext _ _ _ fun q n hn => ?_
  have hlt : n < 128 := by
    obtain ⟨k, -, rfl⟩ := List.mem_map.mp hn
    omega
  rw [layer2Step, layer2Step, h n hlt]

/-- Settles O26: the IV enters its length check and layer 2 alone, whose positions are below 128. -/
theorem rc4pInitIgnoresLateIvBytes : Obligations.Rc4pInitIgnoresLateIvBytes := by
  intro key iv iv' s hlen _ hsame
  have hoperand : ∀ n, n < 128 → operandAt iv n = operandAt iv' n := fun _ => operandAt_congr hlen hsame
  have hschedule : rc4pSchedule key iv = rc4pSchedule key iv' := by
    rw [rc4pSchedule, rc4pSchedule, layer2_congr hoperand]
  change Host.Outcome.next (initEngine _ (keyIvReject _ iv.length) (putRc4p (rc4pSchedule key iv)) s) = _
  rw [hlen, hschedule]
  rfl

/-! ## RC4P.GEN -/

/-- R126: the two shifted parts do not overlap, so their exclusive-or is a concatenation. -/
theorem shl5_xor_shr3 (x y : Byte) :
    (x <<< 5) ^^^ (y >>> 3) = x.extractLsb' 0 3 ++ y.extractLsb' 3 5 := by
  refine BitVec.eq_of_getLsbD_eq fun n hn => ?_
  rw [BitVec.getLsbD_append, BitVec.getLsbD_xor, BitVec.getLsbD_shiftLeft, BitVec.getLsbD_ushiftRight,
    BitVec.getLsbD_extractLsb', BitVec.getLsbD_extractLsb']
  by_cases hlow : n < 5
  · simp [hlow, hn]
  · have hhigh : y.getLsbD (3 + n) = false := BitVec.getLsbD_of_ge _ _ (by omega)
    have hfield : n - 5 < 3 := by omega
    simp [hlow, hn, hhigh, hfield]

theorem rc4pOut_eq (S : Table) (i j : Byte) :
    rc4pOut S i j =
      (readCell S (readCell S i + readCell S j) +
        readCell S ((readCell S (i.extractLsb' 0 3 ++ j.extractLsb' 3 5) +
          readCell S (j.extractLsb' 0 3 ++ i.extractLsb' 3 5)) ^^^ 0xAA)) ^^^
      readCell S (j + readCell S j) := by
  rw [← shl5_xor_shr3, ← shl5_xor_shr3]
  rfl

/-- Settles O24: `advance`, then the transform with its shifted indices read as concatenations. -/
theorem rc4pGenCompletes : Obligations.Rc4pGenCompletes := by
  intro s hvalid
  refine ⟨_, exec_rc4pGen_valid hvalid, rfl, rfl, swapCells_exchanged _ _ _,
    _, _, _, _, _, _, rfl, rfl, rfl, rfl, rfl, rfl, ?_⟩
  rw [respond_eq, encodeRsp_one, show params.rc4pOut = rc4pOut from rfl, rc4pOut_eq]
  rfl

/-! ## Iterating GENs -/

/-- On its valid engine the command completes, leaves the engine valid and applies `f` to `record`. -/
def MapsRecord {α : Type} (i : Instr) (record : State → α) (f : α → α) : Prop :=
  ∀ s, valid i.eng s = true → ∃ t, exec i s = .next t ∧ valid i.eng t = true ∧ record t = f (record s)

theorem MapsRecord.execMany_replicate {α : Type} {i : Instr} {record : State → α} {f : α → α}
    (h : MapsRecord i record f) (m : Nat) {s : State} (hs : valid i.eng s = true) :
    ∃ t, execMany (List.replicate m i) s = some t ∧ record t = f^[m] (record s) := by
  induction m generalizing s with
  | zero => exact ⟨s, rfl, rfl⟩
  | succ m ih =>
    obtain ⟨t, hexec, ht, hrecord⟩ := h s hs
    obtain ⟨u, hmany, hrecord'⟩ := ih ht
    refine ⟨u, ?_, ?_⟩
    · rw [List.replicate_succ, execMany_cons_of_next hexec, hmany]
    · rw [hrecord', hrecord, Function.iterate_succ_apply]

theorem rc4Gen_mapsRecord : MapsRecord .rc4Gen State.rc4 advance := fun _ hs =>
  ⟨_, exec_rc4Gen_valid hs, hs, rfl⟩

theorem rc4pGen_mapsRecord : MapsRecord .rc4pGen State.rc4p advance := fun _ hs =>
  ⟨_, exec_rc4pGen_valid hs, hs, rfl⟩

/-- Settles O25: `m` GENs of either engine iterate `advance` on its record. -/
theorem rc4pStatesFollowRc4 : Obligations.Rc4pStatesFollowRc4 := by
  intro m s hrc4 hrc4p hsame
  obtain ⟨t, ht, hrecord⟩ := rc4Gen_mapsRecord.execMany_replicate m (s := s) hrc4
  obtain ⟨u, hu, hrecord'⟩ := rc4pGen_mapsRecord.execMany_replicate m (s := s) hrc4p
  exact ⟨t, u, ht, hu, by rw [hrecord', hrecord, hsame]⟩

end Sys2Proof.Machine
end

