-- ==== Sys2Proof/Proofs/Rc4a.lean ====
section
/-! PROOFS. The statements of 42_rc4a.md. `exec_rc4aInit_accepted` says what state an accepted INIT leaves. The
registers of half-step A are an RC4 engine inside the RC4A record (`firstEngine`): the INIT schedules it as
RC4's, and half-step B does not write it, so a GEN applies RC4's `advance` to it. -/

namespace Sys2Proof.Machine

/-! ## RC4A.INIT -/

theorem exec_rc4aInit_accepted {key : List Byte} (h : 1 ≤ key.length) (h' : key.length ≤ 256) (s : State) :
    exec (.rc4aInit key) s =
      .next (respond ⟨.ok, []⟩ (setValid .rc4a true (putRc4a (rc4aSchedule key) s))) :=
  congrArg (fun check => Host.Outcome.next (initEngine .rc4a check (putRc4a (rc4aSchedule key)) s))
    (keyReject_of_accepted h h')

/-- R141 `reverse_copy`. -/
@[simp] theorem readCell_reverseTable (T : Table) (x : Byte) :
    readCell (reverseTable T) x = readCell T (255 - x) :=
  readCell_tableOf _ x

/-- Settles O27: `S1` is one pass from the identity table and accumulator 0, `S2` its reversal. -/
theorem rc4aInitCompletes : Obligations.Rc4aInitCompletes := by
  intro key s hmin hmax
  refine ⟨_, exec_rc4aInit_accepted hmin hmax s, ?_, ?_, rfl, rfl, rfl, ?_⟩
  · exact ⟨identityTable, _, isIdentity_identityTable, ksaPass_swapPass key (identityTable, 0)⟩
  · exact readCell_reverseTable (rc4aSchedule key).S1
  · rw [respond_eq, encodeRsp_empty]
    rfl

/-! ## RC4A.GEN -/

/-- R142: the two bytes of a unit, by the registers before (`r`) and after: the first is looked up in the
`S2` from before its swap, the second in the new `S1`. -/
theorem rc4aGenerate_bytes (r : Rc4aEngine) :
    (rc4aGenerate r).2 =
      [readCell r.S2 (readCell (rc4aGenerate r).1.S1 (rc4aGenerate r).1.i +
          readCell (rc4aGenerate r).1.S1 (rc4aGenerate r).1.j1),
        readCell (rc4aGenerate r).1.S1 (readCell (rc4aGenerate r).1.S2 (rc4aGenerate r).1.i +
          readCell (rc4aGenerate r).1.S2 (rc4aGenerate r).1.j2)] := rfl

/-- Settles O28: the two half-steps on a valid engine, the rejection on one that is not. -/
theorem rc4aGenCompletes : Obligations.Rc4aGenCompletes := by
  intro s
  constructor
  · intro hvalid
    refine ⟨_, exec_rc4aGen_valid hvalid, rc4aGenerate_i s.rc4a, rfl, swapCells_exchanged _ _ _,
      rfl, swapCells_exchanged _ _ _, ?_⟩
    rw [respond_eq, rc4aGenerate_bytes, encodeRsp_two]
    rfl
  · intro hinvalid
    rw [exec_use_of_invalid (i := .rc4aGen) rfl hinvalid, raiseReject_eq]
    rfl

/-! ## The RC4 engine inside RC4A -/

/-- The registers half-step A writes, as an RC4 engine. -/
def firstEngine (r : Rc4aEngine) : PermEngine := ⟨r.i, r.j1, r.S1⟩

/-- R102, R140. -/
theorem firstEngine_rc4aSchedule (key : List Byte) : firstEngine (rc4aSchedule key) = rc4Schedule key := rfl

/-- R103, R142: half-step A is RC4's advance, and half-step B reads `i` but writes `j2` and `S2` alone. -/
theorem firstEngine_rc4aGenerate (r : Rc4aEngine) :
    firstEngine (rc4aGenerate r).1 = advance (firstEngine r) := rfl

theorem rc4aGen_mapsRecord : MapsRecord .rc4aGen (fun s => firstEngine s.rc4a) advance := fun s hs =>
  ⟨_, exec_rc4aGen_valid hs, hs, firstEngine_rc4aGenerate s.rc4a⟩

theorem execMany_rc4Init_gens {key : List Byte} (h : 1 ≤ key.length) (h' : key.length ≤ 256) (m : Nat)
    (s : State) : ∃ t, execMany (.rc4Init key :: List.replicate m .rc4Gen) s = some t ∧
      t.rc4 = advance^[m] (rc4Schedule key) := by
  rw [execMany_cons_of_next (exec_rc4Init_accepted h h' s)]
  exact rc4Gen_mapsRecord.execMany_replicate m (valid_setValid_self .rc4 true _)

theorem execMany_rc4aInit_gens {key : List Byte} (h : 1 ≤ key.length) (h' : key.length ≤ 256) (m : Nat)
    (s : State) : ∃ u, execMany (.rc4aInit key :: List.replicate m .rc4aGen) s = some u ∧
      firstEngine u.rc4a = advance^[m] (rc4Schedule key) := by
  rw [execMany_cons_of_next (exec_rc4aInit_accepted h h' s), ← firstEngine_rc4aSchedule]
  exact rc4aGen_mapsRecord.execMany_replicate m (valid_setValid_self .rc4a true _)

/-- Settles O29: both runs iterate `advance` from one schedule. -/
theorem rc4aFirstTableIsRc4s : Obligations.Rc4aFirstTableIsRc4s := by
  intro key m s hmin hmax
  obtain ⟨t, ht, hrc4⟩ := execMany_rc4Init_gens hmin hmax m s
  obtain ⟨u, hu, hrc4a⟩ := execMany_rc4aInit_gens hmin hmax m s
  have hsame : firstEngine u.rc4a = t.rc4 := hrc4a.trans hrc4.symm
  exact ⟨t, u, ht, hu, congrArg PermEngine.i hsame, congrArg PermEngine.j hsame,
    congrArg PermEngine.S hsame⟩

end Sys2Proof.Machine
end

