-- ==== Sys2Proof/Proofs/Vmpc.lean ====
section
/-! PROOFS. The statements of 43_vmpc.md. The schedule is read as a sequence of six passes on one table and
one accumulator (`vmpcSequence`), each a schedule pass (`vmpcPass_swapPass`); the running operand index differs
from the in-pass index by a multiple of 256, which no length that divides 256 sees; and `i` is a register
that INIT clears and GEN leaves. -/

namespace Sys2Proof.Machine

/-! ## VMPC.INIT -/

theorem exec_vmpcInit_accepted {key iv : List Byte} (h : 1 ≤ key.length) (h' : key.length ≤ 256)
    (hiv : iv.length = key.length) (s : State) :
    exec (.vmpcInit key iv) s =
      .next (respond ⟨.ok, []⟩ (setValid .vmpc true (putVmpc (vmpcSchedule params key iv) s))) :=
  congrArg (fun check => Host.Outcome.next (initEngine .vmpc check (putVmpc (vmpcSchedule params key iv)) s))
    ((keyIvReject_eq_none_iff _ _).mpr ⟨⟨h, h'⟩, hiv⟩)

/-- R161 with the default step and index (D17): the index does not depend on the pass number. -/
theorem vmpcPass_swapPass (src : List Byte) (p : Table × Byte) (pass : Nat) :
    SwapPass 256 (fun n => BitVec.ofNat 8 n)
      (fun n T j => readCell T (j + readCell T (BitVec.ofNat 8 n) + operandAt src n))
      p.1 p.2 (vmpcPass params src p pass).1 (vmpcPass params src p pass).2 := by
  rw [vmpcPass_eq]
  exact swapPass_foldl 256 id _ (vmpcStep params src pass) (fun _ _ _ => rfl) p

/-- R160: the table and accumulator after `k` passes of a schedule, three over the key and then those over
the IV, where pass `k` is number `k % 3` of its input. -/
def vmpcSequence (key iv : List Byte) : Nat → Table × Byte
  | 0 => (identityTable, 0)
  | k + 1 => vmpcPass params (if k < 3 then key else iv) (vmpcSequence key iv k) (k % 3)

/-- R160: the schedule clears `i` and keeps what the sixth pass left (D18). -/
theorem vmpcSchedule_eq_sequence (key iv : List Byte) :
    vmpcSchedule params key iv = ⟨0, (vmpcSequence key iv 6).2, (vmpcSequence key iv 6).1⟩ := rfl

/-- Settles O31: the passes of `vmpcSequence`, the last of which leaves the engine's table and `j`. -/
theorem vmpcInitCompletes : Obligations.VmpcInitCompletes := by
  intro key iv s hmin hmax hiv
  refine ⟨_, exec_vmpcInit_accepted hmin hmax hiv s, ?_, rfl, ?_⟩
  · refine ⟨fun k => (vmpcSequence key iv k).1, fun k => (vmpcSequence key iv k).2,
      isIdentity_identityTable, rfl, fun k _ => ?_, ?_, ?_⟩
    · exact vmpcPass_swapPass _ (vmpcSequence key iv k) (k % 3)
    · exact congrArg PermEngine.S (vmpcSchedule_eq_sequence key iv)
    · exact congrArg PermEngine.j (vmpcSchedule_eq_sequence key iv)
  · rw [respond_eq, encodeRsp_empty]
    rfl

/-! ## The operand index -/

/-- R13: whole tables of positions are whole rounds of an operand whose length divides 256. -/
theorem operandAt_tables_add {src : List Byte} (h : src.length ∣ 256) (pass n : Nat) :
    operandAt src (256 * pass + n) = operandAt src n := by
  obtain ⟨c, hc⟩ := h
  rw [operandAt, operandAt, hc, Nat.mul_assoc, Nat.mul_add_mod]

theorem vmpcPass_running_eq_inPass (cfg : Config) {src : List Byte} (h : src.length ∣ 256)
    (p : Table × Byte) (pass : Nat) :
    vmpcPass { cfg with vmpcKeyIndex := .running } src p pass =
      vmpcPass { cfg with vmpcKeyIndex := .inPass } src p pass := by
  rw [vmpcPass_eq, vmpcPass_eq]
  refine List.foldl_ext _ _ _ fun q n _ => ?_
  have hoperand : operandAt src (vmpcIndex .running pass n) = operandAt src (vmpcIndex .inPass pass n) :=
    operandAt_tables_add h pass n
  rw [vmpcStep, vmpcStep, hoperand]

/-- Settles O34: pass by pass. -/
theorem vmpcKeyIndexModesAgree : Obligations.VmpcKeyIndexModesAgree := by
  intro cfg src p hdvd
  simp only [vmpcFold_eq, vmpcPass_running_eq_inPass cfg hdvd]

/-! ## VMPC.GEN -/

/-- Settles O32: `vmpcGenerate` on a valid engine, the rejection on one that is not. -/
theorem vmpcGenCompletes : Obligations.VmpcGenCompletes := by
  intro s
  constructor
  · intro hvalid
    refine ⟨_, exec_vmpcGen_valid hvalid, vmpcGenerate_i s.vmpc, rfl, swapCells_exchanged _ _ _, ?_⟩
    rw [respond_eq, encodeRsp_one]
    rfl
  · intro hinvalid
    rw [exec_use_of_invalid (i := .vmpcGen) rfl hinvalid, raiseReject_eq]
    rfl

/-! ## The index register -/

/-- R163: `VMPC.i` is 0. -/
def VmpcIndexZero (s : State) : Prop := s.vmpc.i = 0

theorem vmpcIndexZero_isRecordProperty : IsRecordProperty .vmpc VmpcIndexZero :=
  fun _ _ hrec hs => (congrArg PermEngine.i hrec).symm.trans hs

theorem vmpcSchedule_i (cfg : Config) (key iv : List Byte) : (vmpcSchedule cfg key iv).i = 0 := rfl

theorem exec_keeps_vmpcIndex {i : Instr} {s t : State} (he : i.eng = .vmpc) (ht : exec i s = .next t)
    (hs : valid .vmpc s = true → VmpcIndexZero s) : valid .vmpc t = true → VmpcIndexZero t := by
  have hP := vmpcIndexZero_isRecordProperty
  cases i <;> cases he <;> injection ht with ht <;> subst ht
  case vmpcInit key iv => exact initEngine_establishes hP (vmpcSchedule_i params key iv)
  case vmpcGen => exact useEngine_keeps hP (vmpcGenerate_i s.vmpc).trans hs

/-- Settles O51: of the commands to VMPC, INIT clears `i` and GEN leaves it. -/
theorem stepKeepsVmpcIndexZero : Obligations.StepKeepsVmpcIndexZero :=
  fun _ _ hs ht => step_keeps_engine vmpcIndexZero_isRecordProperty
    (fun _ _ _ => exec_keeps_vmpcIndex) hs ht

end Sys2Proof.Machine
end

