-- ==== Sys2Proof/Proofs/Spritz.lean ====
section
/-! PROOFS. The statements of 44_spritz.md. Each micro-operation meets the relation Safety.lean states for it
(`spzUpdate_updated`, `spzWhip_whipped`, `spzCrush_crushed`, `spzAbsorbNibble_absorbedNibble`,
`spzDrip_dripped`); `exec_spzInit_accepted` and the three `exec_spz…_valid` say what state a command leaves;
the result statements put the two together. -/

namespace Sys2Proof.Machine

/-! ## The register updates as record updates -/

theorem spzSetA_eq (b : Byte) (r : SpzEngine) : spzSetA b r = { r with a := b } := rfl

theorem spzBumpW_eq (r : SpzEngine) : spzBumpW r = { r with w := r.w + 2 } := rfl

theorem spzBumpA_eq_setA (r : SpzEngine) : spzBumpA r = spzSetA (r.a + 1) r := rfl

theorem spzMapTable_eq (f : Table → Table) (r : SpzEngine) : spzMapTable f r = { r with S := f r.S } := rfl

theorem spzPlaceNibble_eq (n : Byte) (r : SpzEngine) :
    spzPlaceNibble n r = { r with a := r.a + 1, S := swapCells r.S r.a (128 + n) } := rfl

theorem spzOutput_eq (r : SpzEngine) :
    spzOutput r = { r with z := readCell r.S (r.j + readCell r.S (r.i + readCell r.S (r.z + r.k))) } := rfl

/-! ## Whip -/

theorem spzUpdate_updated (r : SpzEngine) : Updated r (spzUpdate r) := by
  refine ⟨spzUpdate_i r, ?_, spzUpdate_k r, ?_, spzUpdate_a r, spzUpdate_w r, spzUpdate_z r⟩
  · rw [spzUpdate_i, spzUpdate_j]
  · rw [spzUpdate_i, spzUpdate_S]
    exact swapCells_exchanged _ _ _

theorem spzWhip_whipped (r : SpzEngine) : Whipped r (spzWhip r) := by
  refine ⟨fun n => spzUpdate^[n] r, rfl, fun n _ => ?_, ?_⟩
  · simp only [Function.iterate_succ_apply']
    exact spzUpdate_updated _
  · rw [spzWhip, spzWhipUpdates_eq, spzBumpW_eq]

/-- Settles O35: the 512 iterates of `update`, and the scalars after them. (The model's own `spzWhipUpdates` has
the obligation's name.) -/
theorem spzWhipUpdates_holds : Obligations.SpzWhipUpdates :=
  fun r => ⟨spzWhip_whipped r, spzWhip_i r, spzWhip_a r, spzWhip_w r, spzWhip_z r⟩

/-! ## Crush -/

/-- R185: the lower address of the pair that `x` belongs to. -/
def pairIndex (x : Byte) : Nat := min x.toNat (255 - x.toNat)

/-- R185: in the pair `(v, 255 - v)` the value at the lower address is the greater one. -/
def isInverted (T : Table) (v : Nat) : Bool :=
  decide ((readCell T (BitVec.ofNat 8 (255 - v))).toNat < (readCell T (BitVec.ofNat 8 v)).toNat)

theorem crushStep_eq (T : Table) (v : Nat) :
    crushStep T v =
      if isInverted T v then swapCells T (BitVec.ofNat 8 v) (BitVec.ofNat 8 (255 - v)) else T := by
  simp only [isInverted, decide_eq_true_eq]
  rfl

theorem pairIndex_lt (x : Byte) : pairIndex x < 128 := by
  unfold pairIndex
  omega

theorem pairIndex_partner (x : Byte) : pairIndex (255 - x) = pairIndex x := by
  unfold pairIndex
  bv_omega

theorem pairIndex_eq_iff {v : Nat} (hv : v < 128) (x : Byte) :
    pairIndex x = v ↔ x = BitVec.ofNat 8 v ∨ x = BitVec.ofNat 8 (255 - v) := by
  unfold pairIndex
  bv_omega

/-- The exchange of a pair reads every cell of it at its partner. -/
theorem readCell_swapCells_pair (T : Table) {v : Nat} (hv : v < 128) (x : Byte) :
    readCell (swapCells T (BitVec.ofNat 8 v) (BitVec.ofNat 8 (255 - v))) x =
      readCell T (if pairIndex x = v then 255 - x else x) := by
  have hlow : (255 : Byte) - BitVec.ofNat 8 v = BitVec.ofNat 8 (255 - v) := by bv_omega
  have hhigh : (255 : Byte) - BitVec.ofNat 8 (255 - v) = BitVec.ofNat 8 v := by bv_omega
  rw [readCell_swapCells]
  simp only [pairIndex_eq_iff hv]
  by_cases h : x = BitVec.ofNat 8 v
  · rw [if_pos h, if_pos (.inl h), h, hlow]
  by_cases h' : x = BitVec.ofNat 8 (255 - v)
  · rw [if_neg h, if_pos h', if_pos (.inr h'), h', hhigh]
  · rw [if_neg h, if_neg h', if_neg (not_or_intro h h')]

/-- Iteration `v` reads the cells of an inverted pair `v` at their partners, and every other cell in place. -/
theorem readCell_crushStep (T : Table) {v : Nat} (hv : v < 128) (x : Byte) :
    readCell (crushStep T v) x =
      readCell T (if pairIndex x = v ∧ isInverted T v then 255 - x else x) := by
  rw [crushStep_eq]
  cases isInverted T v with
  | true => simpa using readCell_swapCells_pair T hv x
  | false => simp

/-- A pair's order is read from its two cells. -/
theorem isInverted_congr {T U : Table} {v : Nat} (hv : v < 128)
    (h : ∀ x, pairIndex x = v → readCell U x = readCell T x) : isInverted U v = isInverted T v := by
  rw [isInverted, isInverted, h _ ((pairIndex_eq_iff hv _).mpr (.inl rfl)),
    h _ ((pairIndex_eq_iff hv _).mpr (.inr rfl))]

/-- The first `m` iterations order the pairs below `m`. The pairs are disjoint, so iteration `m` finds its own
pair as it is in `T`. -/
theorem readCell_crushFold (T : Table) {m : Nat} (hm : m ≤ 128) (x : Byte) :
    readCell ((List.range m).foldl crushStep T) x =
      readCell T (if pairIndex x < m ∧ isInverted T (pairIndex x) then 255 - x else x) := by
  induction m generalizing x with
  | zero => simp
  | succ m ih =>
    have ih := ih (by omega)
    have hfresh : ∀ y, pairIndex y = m →
        readCell ((List.range m).foldl crushStep T) y = readCell T y := fun y hy => by
      rw [ih, if_neg (by omega)]
    rw [List.range_succ, List.foldl_append, List.foldl_cons, List.foldl_nil,
      readCell_crushStep _ (by omega), isInverted_congr (by omega) hfresh]
    by_cases hx : pairIndex x = m
    · rw [hfresh _ (by split_ifs <;> simp only [pairIndex_partner, hx])]
      simp [hx]
    · have hlt : pairIndex x < m + 1 ↔ pairIndex x < m := by omega
      simp only [hx, false_and, if_false, ih, hlt]

theorem readCell_crushTable (T : Table) (x : Byte) :
    readCell (crushTable T) x = readCell T (if isInverted T (pairIndex x) then 255 - x else x) := by
  rw [crushTable_eq, readCell_crushFold T le_rfl]
  simp only [pairIndex_lt, true_and]

theorem spzCrush_crushed (r : SpzEngine) : Crushed r (spzCrush r) := by
  refine ⟨by rw [spzCrush_S, spzCrush, spzMapTable_eq], fun v hv => ?_⟩
  have hlow : pairIndex v = v.toNat := by unfold pairIndex; omega
  have hhigh : pairIndex (255 - v) = v.toNat := by rw [pairIndex_partner, hlow]
  have hback : 255 - (255 - v) = v := by bv_omega
  have hpartner : BitVec.ofNat 8 (255 - v.toNat) = 255 - v := by bv_omega
  rw [spzCrush_S, readCell_crushTable, readCell_crushTable, hlow, hhigh, hback, isInverted, hpartner,
    BitVec.ofNat_toNat, BitVec.setWidth_eq]
  simp only [decide_eq_true_eq]
  constructor <;> split_ifs <;> rfl

/-- Settles O36: the crushed table, read at the two cells of a pair. -/
theorem spzCrushOrdersPairs : Obligations.SpzCrushOrdersPairs := spzCrush_crushed

/-! ## Shuffle -/

/-- Settles O37: the five steps of the definition, each as its relation says. -/
theorem spzShuffleFiveSteps : Obligations.SpzShuffleFiveSteps := by
  intro r
  refine ⟨⟨_, _, _, _, _, spzWhip_whipped r, spzCrush_crushed _, spzWhip_whipped _, spzCrush_crushed _,
    spzWhip_whipped _, ?_⟩, spzShuffle_i r, spzShuffle_w r, spzShuffle_z r⟩
  rw [spzShuffle, spzSetA_eq]

/-! ## Absorbing -/

theorem spzMakeRoom_eq (r : SpzEngine) :
    spzMakeRoom r = if 128 ≤ r.a.toNat then spzShuffle r else r := rfl

theorem spzAbsorbNibble_absorbedNibble (n : Byte) (r : SpzEngine) :
    AbsorbedNibble n r (spzAbsorbNibble r n) := by
  rw [spzAbsorbNibble, spzPlaceNibble_eq]
  exact ⟨_, spzMakeRoom_eq r, swapCells_exchanged _ _ _, rfl⟩

theorem spzAbsorbByte_absorbedByte (b : Byte) (r : SpzEngine) : AbsorbedByte b r (spzAbsorbByte r b) :=
  ⟨_, spzAbsorbNibble_absorbedNibble _ r, spzAbsorbNibble_absorbedNibble _ _⟩

/-- The engine after `n` bytes is the one the first `n` bytes leave. -/
theorem spzAbsorbAll_absorbedAll (bs : List Byte) (r : SpzEngine) :
    AbsorbedAll bs r (spzAbsorbAll r bs) := by
  refine ⟨fun n => spzAbsorbAll r (bs.take n), rfl, by simp only [List.take_length], fun n hn => ?_⟩
  simp only [← List.take_concat_get' bs n hn, spzAbsorbAll_append]
  exact spzAbsorbByte_absorbedByte _ _

theorem spzAbsorbStop_of_le {r : SpzEngine} (h : 128 ≤ r.a.toNat) :
    spzAbsorbStop params r = spzBumpA (spzShuffle r) :=
  congrArg spzBumpA (if_pos (decide_eq_true h))

theorem spzAbsorbStop_of_lt {r : SpzEngine} (h : r.a.toNat < 128) :
    spzAbsorbStop params r = spzBumpA r :=
  congrArg spzBumpA (if_neg (by simpa [params, spzStopCond] using h))

/-! ## The states the commands leave -/

theorem exec_spzInit_accepted {key : List Byte} (h : 1 ≤ key.length) (h' : key.length ≤ 256) (s : State) :
    exec (.spzInit key) s =
      .next (respond ⟨.ok, []⟩ (setValid .spz true (putSpz (spzConstruct key) s))) :=
  congrArg (fun check => Host.Outcome.next (initEngine .spz check (putSpz (spzConstruct key)) s))
    (keyReject_of_accepted h h')

theorem exec_spzAbsorb_valid {s : State} (h : valid .spz s = true) (data : List Byte) :
    exec (.spzAbsorb data) s = .next (respond ⟨.ok, []⟩ (putSpz (spzAbsorbAll s.spz data) s)) :=
  congrArg Host.Outcome.next (useEngine_valid h _)

theorem exec_spzAbsorbStop_valid {s : State} (h : valid .spz s = true) :
    exec .spzAbsorbStop s = .next (respond ⟨.ok, []⟩ (putSpz (spzAbsorbStop params s.spz) s)) :=
  congrArg Host.Outcome.next (useEngine_valid h _)

theorem exec_spzSqueeze_valid {s : State} (h : valid .spz s = true) (count : BitVec 16) :
    exec (.spzSqueeze count) s =
      .next (respond ⟨.ok, (spzSqueeze count.toNat s.spz).2⟩
        (putSpz (spzSqueeze count.toNat s.spz).1 s)) :=
  congrArg Host.Outcome.next (useEngine_valid h _)

theorem valid_respond_putSpz {s : State} (h : valid .spz s = true) (rsp : Rsp) (r : SpzEngine) :
    valid .spz (respond rsp (putSpz r s)) = true := h

theorem valid_respond_setValid (e : Eng) (rsp : Rsp) (s : State) :
    valid e (respond rsp (setValid e true s)) = true := valid_setValid_self e true s

/-- R81: the response to a use of Spritz that returns no data. -/
theorem respond_ok_putSpz (r : SpzEngine) (s : State) :
    respond ⟨.ok, []⟩ (putSpz r s) = { s with spz := r, rsp := s.rsp ++ [0x00, 0x00, 0x00] } := by
  rw [respond_eq, encodeRsp_empty]
  rfl

/-! ## SPZ.INIT, SPZ.ABSORB and SPZ.ABSORB_STOP -/

/-- Settles O38: the initial state, then the key absorbed. -/
theorem spzInitCompletes : Obligations.SpzInitCompletes := by
  intro key s hmin hmax
  refine ⟨_, exec_spzInit_accepted hmin hmax s, ⟨identityTable, isIdentity_identityTable, ?_⟩, ?_⟩
  · exact spzAbsorbAll_absorbedAll key spzInitial
  · rw [respond_eq, encodeRsp_empty]
    rfl

/-- Settles O40: the data absorbed into the engine as it is. -/
theorem spzAbsorbCompletes : Obligations.SpzAbsorbCompletes := by
  intro data s hvalid
  refine ⟨_, exec_spzAbsorb_valid hvalid data, ?_, ?_⟩
  · exact spzAbsorbAll_absorbedAll data s.spz
  · rw [respond_ok_putSpz]

/-- Settles O41: the default stop condition compares `a` with 128. -/
theorem spzAbsorbStopCompletes : Obligations.SpzAbsorbStopCompletes := by
  intro s hvalid
  refine ⟨_, exec_spzAbsorbStop_valid hvalid, fun hge => ?_, fun hlt => ?_, ?_⟩
  · rw [respond_spz, putSpz_spz, spzAbsorbStop_of_le hge, spzBumpA_eq_setA, spzSetA_eq, spzShuffle_a]
    rfl
  · rw [respond_spz, putSpz_spz, spzAbsorbStop_of_lt hlt, spzBumpA_eq_setA, spzSetA_eq]
  · rw [respond_ok_putSpz]

theorem execMany_two {i i' : Instr} {s t u : State} (h : exec i s = .next t) (h' : exec i' t = .next u) :
    execMany [i, i'] s = some u := by
  rw [execMany_cons_of_next h, execMany_cons_of_next h', execMany]

/-- Settles O44: absorbing is a fold over the bytes. -/
theorem absorbConcatenates : Obligations.AbsorbConcatenates := by
  intro key d1 d2 s
  constructor
  · intro hvalid
    refine ⟨_, _, execMany_two (exec_spzAbsorb_valid hvalid d1)
        (exec_spzAbsorb_valid (valid_respond_putSpz hvalid _ _) d2),
      exec_spzAbsorb_valid hvalid (d1 ++ d2), ?_⟩
    simp only [respond_spz, putSpz_spz, spzAbsorbAll_append]
  · intro hmin hmax
    have hlen : (key ++ d1).length = key.length + d1.length := List.length_append
    refine ⟨_, _, execMany_two (exec_spzInit_accepted hmin (by omega) s)
        (exec_spzAbsorb_valid (valid_respond_setValid .spz _ _) d1),
      exec_spzInit_accepted (by omega) hmax s, ?_, ?_⟩
    · simp only [respond_spz, putSpz_spz, setValid_spz, spzConstruct, spzAbsorbAll_append]
    · simp only [respond_engstat, putSpz_engstat, setValid_engstat]

/-! ## Squeezing -/

theorem spzDrip_dripped {r : SpzEngine} (h : r.a = 0) : Dripped r (spzDrip r) := by
  refine ⟨spzUpdate r, spzUpdate_updated r, ?_⟩
  rw [spzDrip, spzSettle_of_zero h, spzOutput_eq, spzUpdate_z]

/-- The last of `n + 1` drips. -/
theorem spzDrips_succ (n : Nat) (r : SpzEngine) :
    spzDrips (n + 1) r =
      (spzDrip (spzDrips n r).1, (spzDrips n r).2 ++ [(spzDrip (spzDrips n r).1).z]) := by
  rw [spzDrips_add, spzDrips, spzDrips]

/-- R191: the bytes are the `z` registers after each drip, in order. -/
theorem spzDrips_bytes (n : Nat) (r : SpzEngine) :
    (spzDrips n r).2 = (List.range n).map fun k => (spzDrips (k + 1) r).1.z := by
  induction n with
  | zero => rfl
  | succ n ih =>
    rw [List.range_succ, List.map_append, ← ih, List.map_singleton, spzDrips_succ]

theorem spzSettle_of_pos {r : SpzEngine} (h : 0 < r.a.toNat) : spzSettle r = spzShuffle r :=
  if_pos h

theorem spzSqueeze_of_zero {r : SpzEngine} (h : r.a = 0) (n : Nat) : spzSqueeze n r = spzDrips n r := by
  rw [spzSqueeze, spzSettle_of_zero h]

/-- R196 (c): the second of two squeezes finds `a = 0` and does not shuffle. -/
theorem spzSqueeze_add (m n : Nat) (r : SpzEngine) :
    spzSqueeze (m + n) r =
      ((spzSqueeze n (spzSqueeze m r).1).1, (spzSqueeze m r).2 ++ (spzSqueeze n (spzSqueeze m r).1).2) := by
  rw [spzSqueeze_of_zero (spzSqueeze_a m r)]
  exact spzDrips_add m n (spzSettle r)

/-- R81: the length field of a squeeze's response is its count. -/
theorem encodeRsp_count {bs : List Byte} {count : BitVec 16} (h : bs.length = count.toNat) :
    encodeRsp ⟨.ok, bs⟩ = [0x00, count.extractLsb' 8 8, count.extractLsb' 0 8] ++ bs := by
  have hhigh : BitVec.ofNat 8 (bs.length / 256) = count.extractLsb' 8 8 := by
    rw [h, BitVec.extractLsb', Nat.shiftRight_eq_div_pow]
  have hlow : BitVec.ofNat 8 bs.length = count.extractLsb' 0 8 := by
    rw [h, BitVec.extractLsb', Nat.shiftRight_zero]
  rw [encodeRsp, hhigh, hlow]
  rfl

theorem respond_squeeze_rsp (count : BitVec 16) (r : SpzEngine) (s : State) :
    (respond ⟨.ok, (spzSqueeze count.toNat r).2⟩ s).rsp =
      s.rsp ++ [0x00, count.extractLsb' 8 8, count.extractLsb' 0 8] ++ (spzSqueeze count.toNat r).2 := by
  rw [respond_rsp, encodeRsp_count (spzSqueeze_length _ _), List.append_assoc]

/-- Settles O42: the engines after each drip, of which the first is the settled one. -/
theorem spzSqueezeCompletes : Obligations.SpzSqueezeCompletes := by
  intro count s hvalid
  refine ⟨_, exec_spzSqueeze_valid hvalid count, fun n => (spzDrips n (spzSettle s.spz)).1, rfl,
    fun n _ => ?_, rfl, spzSqueeze_a _ _, ?_⟩
  · simp only [spzDrips_succ]
    exact spzDrip_dripped (spzDrips_a n _ (spzSettle_a s.spz))
  · rw [← spzDrips_bytes, respond_eq, encodeRsp_count (spzSqueeze_length _ _), ← List.append_assoc]
    rfl

/-- Settles O43: the drips of both squeezes are the drips of one. -/
theorem squeezeChunking : Obligations.SqueezeChunking := by
  intro s c1 c2 c hsum hvalid
  refine ⟨_, _, _, (spzSqueeze c1.toNat s.spz).2, (spzSqueeze c2.toNat (spzSqueeze c1.toNat s.spz).1).2,
    exec_spzSqueeze_valid hvalid c1, exec_spzSqueeze_valid (valid_respond_putSpz hvalid _ _) c2,
    exec_spzSqueeze_valid hvalid c, respond_squeeze_rsp _ _ _, respond_squeeze_rsp _ _ _, ?_, spzSqueeze_length _ _,
    spzSqueeze_length _ _, ?_⟩
  · rw [respond_squeeze_rsp, ← hsum, spzSqueeze_add, putSpz_rsp]
  · simp only [respond_spz, putSpz_spz, ← hsum, spzSqueeze_add]

/-- R196 (f): the shuffle that opens the squeeze clears the counter that `absorb_stop` raised. -/
theorem spzSettle_absorbStop {r : SpzEngine} (hmin : 1 ≤ r.a.toNat) (hmax : r.a.toNat ≤ 127) :
    spzSettle (spzAbsorbStop params r) = spzSettle r := by
  have hpos : 0 < (spzSetA (r.a + 1) r).a.toNat := by
    rw [spzSetA_a]
    bv_omega
  rw [spzAbsorbStop_of_lt (by omega), spzBumpA_eq_setA, spzSettle_of_pos hpos, spzShuffle_setA,
    spzSettle_of_pos hmin]

/-- Settles O45: both squeezes start from the same settled engine. -/
theorem stopThenSqueezeIsSqueeze : Obligations.StopThenSqueezeIsSqueeze := by
  intro s count hvalid hmin hmax
  have hsame : spzSqueeze count.toNat (spzAbsorbStop params s.spz) = spzSqueeze count.toNat s.spz := by
    rw [spzSqueeze, spzSqueeze, spzSettle_absorbStop hmin hmax]
  refine ⟨_, _, encodeRsp ⟨.ok, (spzSqueeze count.toNat s.spz).2⟩,
    execMany_two (exec_spzAbsorbStop_valid hvalid)
      (exec_spzSqueeze_valid (valid_respond_putSpz hvalid _ _) count),
    exec_spzSqueeze_valid hvalid count, ?_, rfl, ?_⟩
  · simp only [respond_spz, putSpz_spz, hsame]
  · simp only [respond_rsp, respond_spz, putSpz_rsp, putSpz_spz, hsame, encodeRsp_empty]
    rfl

/-! ## Even registers -/

/-- R196 (e): `w` and `i` are even. -/
def RegistersEven (r : SpzEngine) : Prop := r.w.toNat % 2 = 0 ∧ r.i.toNat % 2 = 0

theorem add_even {x y : Byte} (hx : x.toNat % 2 = 0) (hy : y.toNat % 2 = 0) : (x + y).toNat % 2 = 0 := by
  rw [BitVec.toNat_add]
  omega

theorem RegistersEven.shuffle {r : SpzEngine} (h : RegistersEven r) : RegistersEven (spzShuffle r) := by
  obtain ⟨hw, hi⟩ := h
  rw [RegistersEven, spzShuffle_w, spzShuffle_i]
  exact ⟨add_even hw rfl, hi⟩

theorem RegistersEven.settle {r : SpzEngine} (h : RegistersEven r) : RegistersEven (spzSettle r) := by
  unfold spzSettle
  split
  · exact h.shuffle
  · exact h

theorem RegistersEven.absorbNibble {r : SpzEngine} (h : RegistersEven r) (n : Byte) :
    RegistersEven (spzAbsorbNibble r n) := by
  have hroom : RegistersEven (spzMakeRoom r) := by
    unfold spzMakeRoom
    split
    · exact h.shuffle
    · exact h
  obtain ⟨hi, -, -, hw, -⟩ := spzAbsorbNibble_registers r n
  rwa [RegistersEven, hi, hw]

theorem RegistersEven.absorbAll {r : SpzEngine} (h : RegistersEven r) (bs : List Byte) :
    RegistersEven (spzAbsorbAll r bs) :=
  foldl_keeps RegistersEven spzAbsorbByte (fun _ _ h => (h.absorbNibble _).absorbNibble _) bs r h

theorem RegistersEven.absorbStop {r : SpzEngine} (h : RegistersEven r) (cfg : Config) :
    RegistersEven (spzAbsorbStop cfg r) := by
  rw [spzAbsorbStop, RegistersEven, spzBumpA_w, spzBumpA_i]
  split
  · exact h.shuffle
  · exact h

theorem RegistersEven.drip {r : SpzEngine} (h : RegistersEven r) : RegistersEven (spzDrip r) := by
  obtain ⟨hw, hi⟩ := h.settle
  rw [spzDrip, RegistersEven, spzOutput_w, spzUpdate_w, spzOutput_i, spzUpdate_i]
  exact ⟨hw, add_even hi hw⟩

theorem RegistersEven.squeeze {r : SpzEngine} (h : RegistersEven r) (n : Nat) :
    RegistersEven (spzSqueeze n r).1 := by
  rw [spzSqueeze]
  induction n with
  | zero => exact h.settle
  | succ n ih =>
    rw [spzDrips_succ]
    exact ih.drip

theorem registersEven_isRecordProperty : IsRecordProperty .spz (fun s => RegistersEven s.spz) := by
  intro s t hrec hs
  have hrec : s.spz = t.spz := hrec
  rwa [← hrec]

theorem exec_keeps_registersEven {i : Instr} {s t : State} (he : i.eng = .spz) (ht : exec i s = .next t)
    (hs : valid .spz s = true → RegistersEven s.spz) : valid .spz t = true → RegistersEven t.spz := by
  have hP := registersEven_isRecordProperty
  have hinitial : RegistersEven spzInitial := ⟨rfl, rfl⟩
  cases i <;> cases he <;> injection ht with ht <;> subst ht
  case spzInit key => exact initEngine_establishes hP (hinitial.absorbAll key)
  case spzSqueeze count => exact useEngine_keeps hP (fun h => h.squeeze count.toNat) hs
  case spzAbsorb data => exact useEngine_keeps hP (fun h => h.absorbAll data) hs
  case spzAbsorbStop => exact useEngine_keeps hP (fun h => h.absorbStop params) hs

/-- Settles O50: `w` moves by 6, `i` by `w`, and no other register update writes them. -/
theorem stepKeepsSpzEven : Obligations.StepKeepsSpzEven :=
  fun _ _ hs ht => step_keeps_engine registersEven_isRecordProperty
    (fun _ _ _ => exec_keeps_registersEven) hs ht

end Sys2Proof.Machine
end

