-- ==== Sys2Proof/Proofs/Exceptions.lean ====
section
/-! PROOFS. The statements of 60_exceptions.md. `keyReject_code` and `keyIvReject_code` say which code the
operand checks answer with; `initEngine_of_code` and `exec_use_rejected` say what state a rejected INIT and a
rejected use leave. -/

namespace Sys2Proof.Machine

/-! ## The operand checks of an INIT -/

theorem keyReject_of_empty {n : Nat} (h : n = 0) : keyReject n = some .errKeyEmpty := by
  subst h
  rfl

theorem keyReject_of_too_long {n : Nat} (h : 256 < n) : keyReject n = some .errKeyTooLong := by
  have hmin : ¬ n < Config.keyLenMin := by
    rw [Config.keyLenMin]
    omega
  rw [keyReject, if_neg hmin, if_pos h]

theorem keyIvReject_of_keyReject {n : Nat} {c : Status} (h : keyReject n = some c) (m : Nat) :
    keyIvReject n m = some c := by
  rw [keyIvReject, h]

theorem keyIvReject_of_iv_ne {n m : Nat} (h : 1 ≤ n) (h' : n ≤ 256) (hiv : m ≠ n) :
    keyIvReject n m = some .errIvLen := by
  rw [keyIvReject, keyReject_of_accepted h h']
  exact if_pos hiv

/-- R222: the code of a key of a rejected length. -/
theorem keyReject_code {n : Nat} {code : Byte} (h : (n = 0 ∧ code = 0x01) ∨ (256 < n ∧ code = 0x02)) :
    ∃ c, keyReject n = some c ∧ statusCode c = code := by
  obtain ⟨hn, rfl⟩ | ⟨hn, rfl⟩ := h
  · exact ⟨_, keyReject_of_empty hn, rfl⟩
  · exact ⟨_, keyReject_of_too_long hn, rfl⟩

/-- R222, R223: the key's code where the key is rejected, whatever the IV; else the IV's. -/
theorem keyIvReject_code {n m : Nat} {code : Byte}
    (h : (n = 0 ∧ code = 0x01) ∨ (256 < n ∧ code = 0x02) ∨ (1 ≤ n ∧ n ≤ 256 ∧ m ≠ n ∧ code = 0x03)) :
    ∃ c, keyIvReject n m = some c ∧ statusCode c = code := by
  obtain hkey | ⟨hmin, hmax, hiv, rfl⟩ := or_assoc.mpr h
  · obtain ⟨c, hc, hcode⟩ := keyReject_code hkey
    exact ⟨c, keyIvReject_of_keyReject hc m, hcode⟩
  · exact ⟨_, keyIvReject_of_iv_ne hmin hmax hiv, rfl⟩

/-! ## Rejected commands -/

/-- R224: an INIT whose checks answer with a code clears its valid bit and builds nothing. -/
theorem initEngine_of_code {check : Option Status} {code : Byte}
    (h : ∃ c, check = some c ∧ statusCode c = code) (e : Eng) (build : State → State) (s : State) :
    initEngine e check build s =
      { s with engstat := withBit e false s.engstat, rsp := s.rsp ++ [code, 0x00, 0x00] } := by
  obtain ⟨c, rfl, rfl⟩ := h
  rw [initEngine_rejected, raiseReject_eq]

/-- R222, R224: a command other than INIT to an engine that is not valid appends its response alone. -/
theorem exec_use_rejected {i : Instr} (hi : i.isInit = false) {s : State} (hv : valid i.eng s = false) :
    exec i s = .next { s with rsp := s.rsp ++ [0x04, 0x00, 0x00] } := by
  rw [exec_use_of_invalid hi hv, raiseReject_eq]
  rfl

/-- Settles O16: the three INITs run one key check, and the cleared bit is their engine's. -/
theorem keyOnlyInitRejections : Obligations.KeyOnlyInitRejections := by
  intro key s code h
  have hcheck := keyReject_code h
  exact ⟨congrArg Host.Outcome.next (initEngine_of_code hcheck .rc4 _ s),
    congrArg Host.Outcome.next (initEngine_of_code hcheck .rc4a _ s),
    congrArg Host.Outcome.next (initEngine_of_code hcheck .spz _ s)⟩

/-- Settles O17: both INITs run one check of key and IV, and the cleared bit is their engine's. -/
theorem keyIvInitRejections : Obligations.KeyIvInitRejections := by
  intro key iv s code h
  have hcheck := keyIvReject_code h
  exact ⟨congrArg Host.Outcome.next (initEngine_of_code hcheck .rc4p _ s),
    congrArg Host.Outcome.next (initEngine_of_code hcheck .vmpc _ s)⟩

/-- Settles O18: each of the seven commands is a use of its engine. -/
theorem useOfInvalidEngineRejected : Obligations.UseOfInvalidEngineRejected := by
  intro s count data
  exact ⟨exec_use_rejected (i := .rc4Gen) rfl, exec_use_rejected (i := .rc4pGen) rfl,
    exec_use_rejected (i := .rc4aGen) rfl, exec_use_rejected (i := .vmpcGen) rfl,
    fun hspz => ⟨exec_use_rejected (i := .spzSqueeze count) rfl hspz,
      exec_use_rejected (i := .spzAbsorb data) rfl hspz,
      exec_use_rejected (i := .spzAbsorbStop) rfl hspz⟩⟩

end Sys2Proof.Machine
end

