-- ==== Sys2Proof/Proofs/Reset.lean ====
section
/-! PROOFS. The statement of 70_reset_and_hazards.md about the reset state (R250): no engine is valid, and
the invariants speak of valid engines only, so the contents the model chose for reset do not matter. -/

namespace Sys2Proof.Machine

/-- R250: reset leaves no engine valid. -/
theorem not_valid_of_reset (e : Eng) : ¬ valid e State.reset = true :=
  Bool.eq_false_iff.mp (valid_reset e)

/-- Settles O52: each invariant assumes a valid engine, and the reset state has none. -/
theorem resetMeetsInvariants : Obligations.ResetMeetsInvariants := by
  refine ⟨?perm, ?counter, ?even, ?index⟩
  case perm => exact (permInvariant_iff _).mpr fun e hv => absurd hv (not_valid_of_reset e)
  case counter => exact fun hv => absurd hv (not_valid_of_reset .spz)
  case even => exact fun hv => absurd hv (not_valid_of_reset .spz)
  case index => exact fun hv => absurd hv (not_valid_of_reset .vmpc)

end Sys2Proof.Machine
end
